-- ==== Sys2Proof/Word.lean ====
section
/-! DEFINITION. The fixed-width bitstrings of the spec (00_scope.md R13, R14). -/

namespace Sys2Proof

/-- One byte, used only by the byte layout of R43. -/
abbrev Byte := BitVec 8

/-- A 32-bit instruction word (R50) and a 32-bit address (R29). -/
abbrev Word := BitVec 32

/-- The content of one 64-bit SIMD&FP register (R21). -/
abbrev DWord := BitVec 64

/-- The number of a D register: a 5-bit value 0..31 (R6, R7). -/
abbrev Reg := BitVec 5

end Sys2Proof
end

