-- ==== Sys2Proof/Config.lean ====
section
/-! DEFINITION. The types of the parameters the spec leaves to the implementation (00_scope.md R8, R9, R10). The values
themselves stand in State (log 1). There is no free value: the spec leaves no value of VQRSHL open (40_vqrshl.md R90). -/

namespace Sys2Proof

/-- The instruction-set state in which a word is decoded (R8): fixed for a run, no instruction in scope changes it (D17). -/
inductive ISet where
  | a32
  | t32
  deriving DecidableEq, Repr

/-- The three outcomes of `CheckAdvSIMDEnabled()` (R9). -/
inductive AdvSIMDOutcome where
  | permitted
  | undefined
  | hypTrap
  deriving DecidableEq, Repr

/-- A total function as plain data: the value at each listed argument (the first entry for it counts), and one value at
every other argument. R9 and R10 take such functions as arguments of the model.
DESIGN CHOICE (log 2, log 3), safe: for any function and any finite list of arguments there is a table that agrees. -/
structure Table (κ α : Type) where
  listed : List (κ × α)
  otherwise : α
  deriving DecidableEq, Repr

end Sys2Proof
end

