-- ==== Sys2Proof/Syntax.lean ====
section
/-! DEFINITION. The instruction of the spec, one constructor per row of spec/opcode_table.json (30_encoding.md R50, R59). -/

namespace Sys2Proof

/-- The data type `<dt>` of the elements, encoded in U:size (R58). All eight are valid. -/
inductive Dt where
  | s8 | s16 | s32 | s64
  | u8 | u16 | u32 | u64
  deriving DecidableEq, Repr

/-- VQRSHL in its four encodings. `d` is the destination, `m` holds the elements that are shifted, `n` the shift counts
(R72); the arguments stand in the order of the assembler templates (R64). In a Q form the number is that of the first of
two D registers; an odd number there is a word whose execution raises Undefined (R57), so it is a term of this type. -/
inductive Instr where
  /-- `VQRSHL_A1_D` (R83): A32, 64-bit vector. -/
  | vqrshlA1D (dt : Dt) (d m n : Reg)
  /-- `VQRSHL_A1_Q` (R84): A32, 128-bit vector. -/
  | vqrshlA1Q (dt : Dt) (d m n : Reg)
  /-- `VQRSHL_T1_D` (R85): T32, 64-bit vector. -/
  | vqrshlT1D (dt : Dt) (d m n : Reg)
  /-- `VQRSHL_T1_Q` (R86): T32, 128-bit vector. -/
  | vqrshlT1Q (dt : Dt) (d m n : Reg)
  deriving DecidableEq, Repr

end Sys2Proof
end

