-- ==== Sys2Proof/WellFormed.lean ====
section
/-! DEFINITION. Which instructions an assembler can produce: all but the UNDEFINED encodings of 30_encoding.md R57 (R61, R66). -/

namespace Sys2Proof

/-- A Q operand starts at an even D register (R57): the low bit of each of the three numbers is 0. -/
def evenRegs (d m n : Reg) : Bool :=
  !(d.getLsbD 0) && !(m.getLsbD 0) && !(n.getLsbD 0)

/-- Every D form is well formed; a Q form is when its three registers are even (R57, R61). The ill-formed ones still decode,
and their meaning is the fault U-decode (R101). -/
def Instr.wellFormed : Instr → Bool
  | .vqrshlA1D _ _ _ _ => true
  | .vqrshlA1Q _ d m n => evenRegs d m n
  | .vqrshlT1D _ _ _ _ => true
  | .vqrshlT1Q _ d m n => evenRegs d m n

end Sys2Proof
end

