-- ==== Sys2Proof/Decode.lean ====
section
/-! DEFINITION. The decoder and the encoder of 30_encoding.md, from the boxes of the two encoding diagrams (R51, R53), the
operand assembly (R56, R58) and, for loaders, the byte layout of 20_memory.md R43. -/

namespace Sys2Proof

/-! ## Fields -/

/-- `<dt>` from U and size (R58): U chooses unsigned, size the element size `8 << UInt(size)` (R56). -/
def dtOf (u : BitVec 1) (size : BitVec 2) : Dt :=
  if u = 0#1 then
    if size = 0#2 then .s8 else if size = 1#2 then .s16 else if size = 2#2 then .s32 else .s64
  else
    if size = 0#2 then .u8 else if size = 1#2 then .u16 else if size = 2#2 then .u32 else .u64

/-- The U bit that encodes a data type (R58). -/
def Dt.uBit : Dt → BitVec 1
  | .s8 | .s16 | .s32 | .s64 => 0#1
  | .u8 | .u16 | .u32 | .u64 => 1#1

/-- The size field that encodes a data type (R58). -/
def Dt.sizeBits : Dt → BitVec 2
  | .s8 | .u8 => 0#2
  | .s16 | .u16 => 1#2
  | .s32 | .u32 => 2#2
  | .s64 | .u64 => 3#2

/-- `D:Vd`, the destination register (R56): bit 22 above bits 15:12. -/
def fieldD (w : Word) : Reg := w.extractLsb' 22 1 ++ w.extractLsb' 12 4

/-- `M:Vm`, the register of the data (R56): bit 5 above bits 3:0. -/
def fieldM (w : Word) : Reg := w.extractLsb' 5 1 ++ w.extractLsb' 0 4

/-- `N:Vn`, the register of the counts (R56): bit 7 above bits 19:16. -/
def fieldN (w : Word) : Reg := w.extractLsb' 7 1 ++ w.extractLsb' 16 4

/-- size, bits 21:20. -/
def fieldSize (w : Word) : BitVec 2 := w.extractLsb' 20 2

/-- Q, bit 6. -/
def fieldQ (w : Word) : BitVec 1 := w.extractLsb' 6 1

/-- U: bit 24 of an A1 word (R51), bit 28 of a T1 word (R53). -/
def fieldU : ISet → Word → BitVec 1
  | .a32, w => w.extractLsb' 24 1
  | .t32, w => w.extractLsb' 28 1

/-! ## Words -/

/-- The constant boxes that both formats share (R51, R53, R55): bit 23 = 0, opc = 0101, o1 = 1. -/
def commonBoxes (w : Word) : Bool :=
  w.extractLsb' 23 1 == 0#1 && w.extractLsb' 8 4 == 0b0101#4 && w.extractLsb' 4 1 == 1#1

/-- The constant boxes of format A1 (R51). -/
def isA1 (w : Word) : Bool := w.extractLsb' 25 7 == 0b1111001#7 && commonBoxes w

/-- The constant boxes of format T1 (R53); bits 31:16 are the first halfword (PRESUMED, log 28). -/
def isT1 (w : Word) : Bool :=
  w.extractLsb' 29 3 == 0b111#3 && w.extractLsb' 24 4 == 0b1111#4 && commonBoxes w

/-- Why a word or a list of bytes is not an instruction of this spec. -/
inductive DecodeError where
  /-- The word matches no row of the opcode table for this instruction set: out of scope (R60, D9). -/
  | notVqrshl (w : Word)
  /-- Fewer than four bytes: no encoding is shorter (R50). -/
  | truncated
  deriving DecidableEq, Repr

/-- The decoder of R59: test the constant boxes of the class of `iset`, then take the fields. The UNDEFINED test of R57 is
no part of it: it is made when the instruction executes, after the condition (40_vqrshl.md R76). -/
def decodeWord (iset : ISet) (w : Word) : Except DecodeError Instr :=
  match iset with
  | .a32 =>
    if isA1 w then
      if fieldQ w = 0#1 then
        .ok (.vqrshlA1D (dtOf (fieldU .a32 w) (fieldSize w)) (fieldD w) (fieldM w) (fieldN w))
      else
        .ok (.vqrshlA1Q (dtOf (fieldU .a32 w) (fieldSize w)) (fieldD w) (fieldM w) (fieldN w))
    else .error (.notVqrshl w)
  | .t32 =>
    if isT1 w then
      if fieldQ w = 0#1 then
        .ok (.vqrshlT1D (dtOf (fieldU .t32 w) (fieldSize w)) (fieldD w) (fieldM w) (fieldN w))
      else
        .ok (.vqrshlT1Q (dtOf (fieldU .t32 w) (fieldSize w)) (fieldD w) (fieldM w) (fieldN w))
    else .error (.notVqrshl w)

/-! ## The encoder -/

/-- The instruction set of an encoding (R50). -/
def Instr.iset : Instr → ISet
  | .vqrshlA1D _ _ _ _ => .a32
  | .vqrshlA1Q _ _ _ _ => .a32
  | .vqrshlT1D _ _ _ _ => .t32
  | .vqrshlT1Q _ _ _ _ => .t32

/-- The data type of an instruction (R58). -/
def Instr.dt : Instr → Dt
  | .vqrshlA1D dt _ _ _ => dt
  | .vqrshlA1Q dt _ _ _ => dt
  | .vqrshlT1D dt _ _ _ => dt
  | .vqrshlT1Q dt _ _ _ => dt

/-- `d`, the destination register (R56). -/
def Instr.d : Instr → Reg
  | .vqrshlA1D _ d _ _ => d
  | .vqrshlA1Q _ d _ _ => d
  | .vqrshlT1D _ d _ _ => d
  | .vqrshlT1Q _ d _ _ => d

/-- `m`, the register of the data (R56). -/
def Instr.m : Instr → Reg
  | .vqrshlA1D _ _ m _ => m
  | .vqrshlA1Q _ _ m _ => m
  | .vqrshlT1D _ _ m _ => m
  | .vqrshlT1Q _ _ m _ => m

/-- `n`, the register of the counts (R56). -/
def Instr.n : Instr → Reg
  | .vqrshlA1D _ _ _ n => n
  | .vqrshlA1Q _ _ _ n => n
  | .vqrshlT1D _ _ _ n => n
  | .vqrshlT1Q _ _ _ n => n

/-- `regs = if Q == '0' then 1 else 2` (R56). -/
def Instr.regs : Instr → Nat
  | .vqrshlA1D _ _ _ _ => 1
  | .vqrshlA1Q _ _ _ _ => 2
  | .vqrshlT1D _ _ _ _ => 1
  | .vqrshlT1Q _ _ _ _ => 2

/-- Bits 23:0, the same in both formats (R55): `0 D size Vn Vd 0101 N Q M 1 Vm`. -/
def encodeLow (dt : Dt) (d m n : Reg) (q : BitVec 1) : BitVec 24 :=
  0#1 ++ d.extractLsb' 4 1 ++ dt.sizeBits ++ n.extractLsb' 0 4 ++ d.extractLsb' 0 4 ++ 0b0101#4 ++
    n.extractLsb' 4 1 ++ q ++ m.extractLsb' 4 1 ++ 1#1 ++ m.extractLsb' 0 4

/-- The word of an instruction, box by box (R51 for A1, R53 for T1). -/
def encode : Instr → Word
  | .vqrshlA1D dt d m n => 0b1111001#7 ++ dt.uBit ++ encodeLow dt d m n 0#1
  | .vqrshlA1Q dt d m n => 0b1111001#7 ++ dt.uBit ++ encodeLow dt d m n 1#1
  | .vqrshlT1D dt d m n => 0b111#3 ++ dt.uBit ++ 0b1111#4 ++ encodeLow dt d m n 0#1
  | .vqrshlT1Q dt d m n => 0b111#3 ++ dt.uBit ++ 0b1111#4 ++ encodeLow dt d m n 1#1

/-! ## Bytes -/

/-- The bytes of a word at ascending addresses (R43): A32 one little-endian word; T32 two little-endian halfwords, bits
31:16 first. PRESUMED (log 14; the spec marks it general knowledge), unsafe for a reader of bytes; no step reads a byte. -/
def bytesOfWord (iset : ISet) (w : Word) : List Byte :=
  match iset with
  | .a32 => [w.extractLsb' 0 8, w.extractLsb' 8 8, w.extractLsb' 16 8, w.extractLsb' 24 8]
  | .t32 => [w.extractLsb' 16 8, w.extractLsb' 24 8, w.extractLsb' 0 8, w.extractLsb' 8 8]

/-- The word that four bytes at ascending addresses are (R43; PRESUMED, log 14). -/
def wordOfBytes (iset : ISet) (b0 b1 b2 b3 : Byte) : Word :=
  match iset with
  | .a32 => b3 ++ b2 ++ b1 ++ b0
  | .t32 => b1 ++ b0 ++ b3 ++ b2

/-- The decoder on bytes: the first instruction of a list of bytes and the bytes after it. -/
def decodeBytes (iset : ISet) (bs : List Byte) : Except DecodeError (Instr × List Byte) :=
  match bs with
  | b0 :: b1 :: b2 :: b3 :: rest =>
    match decodeWord iset (wordOfBytes iset b0 b1 b2 b3) with
    | .ok i => .ok (i, rest)
    | .error e => .error e
  | _ => .error .truncated

/-- The bytes of an instruction, in the byte layout of its instruction set. -/
def encodeBytes (i : Instr) : List Byte := bytesOfWord i.iset (encode i)

/-! ## The opcode table's words -/

/-- The instruction set in which a word is VQRSHL, if any: no word is both, since bits 31:24 are 1111001U in A1 and 111U1111
in T1 (R55). -/
def isetOfWord (w : Word) : Option ISet :=
  if isA1 w then some .a32 else if isT1 w then some .t32 else none

/-- The 32-bit word that the opcode table's bits make: `nbits` bits of `w`, zero above. -/
def tableWord (nbits w : Nat) : Word := BitVec.ofNat 32 (w % 2 ^ nbits)

/-- The instruction the decoder reads from an opcode-table word: its bytes as the hardware stores them, in the instruction
set whose row it is (log 28), given to `decodeBytes`. -/
def decodeTableWord (nbits w : Nat) : Option Instr :=
  match isetOfWord (tableWord nbits w) with
  | none => none
  | some iset =>
    match decodeBytes iset (bytesOfWord iset (tableWord nbits w)) with
    | .ok (i, _) => some i
    | .error _ => none

end Sys2Proof
end

