-- ==== Sys2Proof/Machine/State.lean ====
section
/-! DEFINITION. The state of the machine (10_state.md R20), the reasons a step can stop (60_exceptions.md R100, R104), and one
start state. -/

namespace Sys2Proof.Machine

/-- FPSCR. Only QC is named (R26, R28). Its position is not in the source (N5), so QC stands apart from the other bits. -/
structure FPSCR where
  /-- The cumulative saturation bit (R26); `true` is 1. -/
  qc : Bool
  /-- Every other bit, none of them named (R27), in their order. PRESUMED (log 6): 31 of them. -/
  rest : BitVec 31
  deriving DecidableEq, Repr

/-- The PE mode (60_exceptions.md R110): the source names Hyp mode and lists no other; another mode is a number that only tells
modes apart (log 5). -/
inductive PEMode where
  | hyp
  | other (id : Nat)
  deriving DecidableEq, Repr

/-- The state the source names without defining (R30). VQRSHL reads it only through CondPassed and AdvSIMDAccess and never
writes it. -/
structure Env where
  /-- CPACR (R28). PRESUMED (log 4): 32 bits; no field is named. -/
  cpacr : BitVec 32
  /-- NSACR (R28). PRESUMED (log 4): 32 bits; no field is named. -/
  nsacr : BitVec 32
  /-- HCPTR (R28). PRESUMED (log 4): 32 bits; no field is named. -/
  hcptr : BitVec 32
  /-- The Security state (R30): a number that only tells values apart (log 5). -/
  security : Nat
  /-- The PE mode (R30, R110). -/
  mode : PEMode
  /-- Whatever holds the condition of the current T32 instruction (R30): a number that only tells values apart (log 5). -/
  condition : Nat
  /-- The flags that condition tests (R30): a number that only tells values apart (log 5). -/
  flags : Nat
  deriving DecidableEq, Repr

/-- The program text (20_memory.md R48): a finite map from addresses to 32-bit words, as a list of entries in one canonical
form (`ProgramText.wf`: addresses strictly rising, each below 2^32). An address that is not listed holds no word. -/
abbrev ProgramText := List (Nat × Word)

/-- The parameters of a run: the spec makes them arguments of the step (R20). DESIGN CHOICE (log 1), safe: they stand in the
state, which no step writes here, since a step takes a state and nothing else. -/
structure Params where
  /-- `iset` (R8). -/
  iset : ISet
  /-- `AdvSIMDAccess` (R9): it reads `env` alone (D3). -/
  advSIMDAccess : Table Env AdvSIMDOutcome
  /-- `CondPassed` for T32 (R10): it reads the pc and `env` (D4). A32 does not consult it. -/
  condPassed : Table (Word × Env) Bool
  /-- The words at the program's addresses (R48). -/
  program : ProgramText
  deriving DecidableEq, Repr

/-- The state (R20). -/
structure State where
  /-- D0 .. D31 (R21). -/
  d : Vector (BitVec 64) 32
  /-- FPSCR (R26, R27). -/
  fpscr : FPSCR
  /-- The address of the instruction (R29). -/
  pc : Word
  /-- The rest of the PE (R30). -/
  env : Env
  /-- The parameters of the run. -/
  params : Params
  deriving DecidableEq, Repr

/-- The cause ids of the fault Undefined (R104): one fault to the machine, the cause is a diagnostic. -/
inductive UndefinedCause where
  /-- U-decode: Q == 1 and an odd register field (R101). -/
  | uDecode
  /-- U-enable: AdvSIMDAccess = Undefined (R102). -/
  | uEnable
  deriving DecidableEq, Repr

/-- The faults of a step (R100, R104). A fault ends the run, changes nothing, and names its cause and the pc. -/
inductive Fault where
  /-- Raised by a Q form with an odd register, and by the enable check (R101, R102). Safe: the hardware takes an exception
  whose entry the source does not give (D2), and nothing is proved of what follows. -/
  | undefined (cause : UndefinedCause) (pc : Word)
  /-- Raised by the enable check, cause H-enable (R103). Safe, for the same reason. -/
  | hypTrap (pc : Word)
  deriving DecidableEq, Repr

/-- The reasons the model gives no step. -/
inductive Refusal where
  /-- An arm of `exec` without a meaning. No arm raises it. Safe. -/
  | notModelled (mnemonic : String)
  /-- Raised by `step` on a word that is not VQRSHL: out of scope (30_encoding.md R60, D9). Safe: nothing is said of it. -/
  | notVqrshl (w : Word)
  /-- Raised by `step` where the pc breaks the alignment of the instruction set (20_memory.md R44, D8). Safe. -/
  | misalignedPc (pc : Word)
  /-- Raised by `step` where the program text has no word at the pc (R48, 70_reset_and_hazards.md R123). Safe. -/
  | noProgramWord (pc : Word)
  deriving DecidableEq, Repr

/-- One start state. The spec has no reset and gives no value (R35, R120); every value here is a DESIGN CHOICE (log 17 to 21),
unsafe: a statement about this state is a statement about the choice. The program text is empty: a program is loaded from
outside (log 21). -/
def State.reset : State where
  d := Vector.replicate 32 0#64
  fpscr := ⟨false, 0#31⟩
  pc := 0#32
  env := ⟨0#32, 0#32, 0#32, 0, .other 0, 0, 0⟩
  params := ⟨.a32, ⟨[], .permitted⟩, ⟨[], true⟩, []⟩

end Sys2Proof.Machine
end

