-- ==== Sys2Proof/Machine/Ops.lean ====
section
/-! DEFINITION. The named operations over the registers, the program text, the parameters and the faults (00_scope.md section
4 and 5, 10_state.md, 60_exceptions.md). -/

namespace Sys2Proof.Machine

/-! ## Elements -/

/-- `Elem[v, e, size]` (R15, R23): bits `[(e+1)*size-1 : e*size]`. PRESUMED (log 15): the body of a library function (G3). -/
def elem (v : DWord) (e size : Nat) : BitVec size := v.extractLsb' (e * size) size

/-- The bits of element `e`, all ones. -/
def elemMask (e size : Nat) : DWord := (BitVec.allOnes size).setWidth 64 <<< (e * size)

/-- `Elem[v, e, size] = x` (R15): replaces those bits of `v` and leaves the rest. PRESUMED (log 15, G3). -/
def setElem (v : DWord) (e size : Nat) (x : BitVec size) : DWord :=
  (v &&& ~~~elemMask e size) ||| (x.setWidth 64 <<< (e * size))

/-! ## The register file -/

/-- `D[i]` (R15, R21). -/
def State.readD (s : State) (i : Reg) : DWord := s.d[i.toNat]'i.isLt

/-- `D[i] <- v` (R15, R21): no register is hardwired. -/
def State.writeD (s : State) (i : Reg) (v : DWord) : State := { s with d := s.d.set i.toNat v i.isLt }

/-- The number of the D register that Q register `q` starts at: `<Qd>*2` (R22). -/
def qBase (q : BitVec 4) : Reg := q ++ 0#1

/-- `Q<i>`, the pair `D[2i]`, `D[2i+1]` (R22). Which one is the more significant half is not in the source and not said here
(log 16). -/
def State.readQ (s : State) (q : BitVec 4) : DWord × DWord := (s.readD (qBase q), s.readD (qBase q + 1#5))

/-- The D register `base + r` of an operand (R25), r = 0 or 1; it does not wrap for an even base. -/
def regAt (base : Reg) (r : Nat) : Reg := base + BitVec.ofNat 5 r

/-! ## The program counter -/

/-- `pc <- (pc + 4) mod 2^32` (R29, R92; the spec's own addition D1, log 8). -/
def State.advancePc (s : State) : State := { s with pc := s.pc + 4#32 }

/-- The alignment that an instruction set asks of the pc, in bytes (R44; PRESUMED, log 11). -/
def pcAlignment : ISet → Nat
  | .a32 => 4
  | .t32 => 2

/-- Whether the pc has the alignment of the instruction set (R44). -/
def State.pcAligned (s : State) : Bool := s.pc.toNat % pcAlignment s.params.iset == 0

/-- The greatest aligned address that is not above `pc`. -/
def alignPc (iset : ISet) (pc : Word) : Word := BitVec.ofNat 32 (pc.toNat - pc.toNat % pcAlignment iset)

/-! ## The program text -/

/-- The word at an address; an address that is not listed holds none (R48). -/
def ProgramText.wordAt (p : ProgramText) (a : Nat) : Option Word :=
  match p with
  | [] => none
  | (b, w) :: rest => if b = a then some w else ProgramText.wordAt rest a

/-- The program text with `w` at address `a`, in the canonical form again. A loader's operation, no instruction's. -/
def ProgramText.place (p : ProgramText) (a : Nat) (w : Word) : ProgramText :=
  match p with
  | [] => [(a, w)]
  | (b, v) :: rest =>
    if a < b then (a, w) :: (b, v) :: rest
    else if a = b then (a, w) :: rest
    else (b, v) :: ProgramText.place rest a w

/-- The canonical form: addresses strictly rising and each an address of 32 bits (R48, R29). -/
def ProgramText.wf (p : ProgramText) : Bool :=
  match p with
  | [] => true
  | (a, _) :: rest =>
    decide (a < 2 ^ 32) && rest.all (fun entry => decide (a < entry.1)) && ProgramText.wf rest

/-- A program of consecutive words `base, base+4, ...` (R123) added to a program text. -/
def ProgramText.load (p : ProgramText) (base : Word) (ws : List Word) : ProgramText :=
  match ws with
  | [] => p
  | w :: rest => ProgramText.load (p.place base.toNat w) (base + 4#32) rest

/-- The word at the pc (R48): the step's instruction word. -/
def State.fetchWord (s : State) : Option Word := s.params.program.wordAt s.pc.toNat

/-- Load one word at the pc, in the instruction set whose word it is (the present one if it is no VQRSHL word), with the
pc aligned for it (log 22). -/
def State.loadAtPc (s : State) (w : Word) : State :=
  let iset := (isetOfWord w).getD s.params.iset
  let pc := alignPc iset s.pc
  { s with
    pc := pc
    params := { s.params with iset := iset, program := s.params.program.place pc.toNat w } }

/-! ## The parameters -/

/-- The value of a table at an argument. -/
def Table.apply {κ α : Type} [DecidableEq κ] (t : Table κ α) (k : κ) : α :=
  match t.listed.find? (fun entry => decide (entry.1 = k)) with
  | some entry => entry.2
  | none => t.otherwise

/-- `AdvSIMDAccess(state)` (R9). -/
def State.advSIMDAccess (s : State) : AdvSIMDOutcome := Table.apply s.params.advSIMDAccess s.env

/-- `ConditionPassed()` for an encoding of `iset` (R10): A1 "must be unconditional"; T1 asks the parameter. -/
def State.conditionPassed (iset : ISet) (s : State) : Bool :=
  match iset with
  | .a32 => true
  | .t32 => Table.apply s.params.condPassed (s.pc, s.env)

/-! ## Faults -/

/-- The causes of R104. -/
inductive FaultCause where
  | uDecode
  | uEnable
  | hEnable
  deriving DecidableEq, Repr

/-- `raise` (R15, R100): the one way an instruction faults. The step ends, nothing is changed, and the fault names its cause
and the pc. The source gives no exception entry and no return (R107, R108; D2, log 9). -/
def raiseFault (cause : FaultCause) (s : State) : Host.Outcome State Fault Refusal :=
  match cause with
  | .uDecode => .fault (.undefined .uDecode s.pc)
  | .uEnable => .fault (.undefined .uEnable s.pc)
  | .hEnable => .fault (.hypTrap s.pc)

/-- `if ConditionPassed() then ...` (R75 lines 1 to 3): a failed condition only advances the pc. -/
def ifConditionPassed (iset : ISet) (s : State) (body : Host.Outcome State Fault Refusal) :
    Host.Outcome State Fault Refusal :=
  if s.conditionPassed iset then body else .next s.advancePc

/-- The UNDEFINED test of the decode for a Q form (R57, R75 line 4). -/
def ifEvenRegs (d m n : Reg) (s : State) (body : Host.Outcome State Fault Refusal) :
    Host.Outcome State Fault Refusal :=
  if evenRegs d m n then body else raiseFault .uDecode s

/-- `CheckAdvSIMDEnabled()` (R19, R75 lines 8 to 11). -/
def ifAdvSIMDEnabled (s : State) (body : Host.Outcome State Fault Refusal) :
    Host.Outcome State Fault Refusal :=
  match s.advSIMDAccess with
  | .undefined => raiseFault .uEnable s
  | .hypTrap => raiseFault .hEnable s
  | .permitted => body

end Sys2Proof.Machine
end

