-- ==== Sys2Proof/Machine/Operands.lean ====
section
/-! DEFINITION. The decode variables of 30_encoding.md R56 and the operand values of 40_vqrshl.md R73 and R75 lines 14 to 21. -/

namespace Sys2Proof.Machine

/-- `unsigned = (U == '1')` (R56, R58). -/
def unsignedOf : Dt → Bool
  | .s8 | .s16 | .s32 | .s64 => false
  | .u8 | .u16 | .u32 | .u64 => true

/-- `esize = 8 << UInt(size)` (R56, R58). -/
def esizeOf : Dt → Nat
  | .s8 | .u8 => 8
  | .s16 | .u16 => 16
  | .s32 | .u32 => 32
  | .s64 | .u64 => 64

/-- `elements = 64 DIV esize` (R56). -/
def elementsOf (dt : Dt) : Nat := 64 / esizeOf dt

/-- `Int(x, unsigned)` (R17). PRESUMED (log 15): the body of a library function (G1). -/
def intOf {size : Nat} (x : BitVec size) (unsigned : Bool) : Int :=
  if unsigned then (x.toNat : Int) else x.toInt

/-- The element that is shifted: `Elem[D[m+r], e, esize]` (R75 line 14). -/
def dataElem (dt : Dt) (m : Reg) (s : State) (r e : Nat) : BitVec (esizeOf dt) :=
  elem (s.readD (regAt m r)) e (esizeOf dt)

/-- The count element: `Elem[D[n+r], e, esize]` (R73). -/
def countElem (dt : Dt) (n : Reg) (s : State) (r e : Nat) : BitVec (esizeOf dt) :=
  elem (s.readD (regAt n r)) e (esizeOf dt)

/-- The shift count: the least significant byte of the count element as a signed integer (R73). -/
def shiftCount {size : Nat} (cnt : BitVec size) : Int := (cnt.extractLsb' 0 8).toInt

/-- The exact shift on unbounded integers (R75 lines 17 to 21, R78, R79): left by a count >= 0, else right with the rounding
constant `2^(s-1)` added, rounding toward minus infinity (`/` is floor for a positive divisor). PRESUMED (log 15): G2. -/
def roundingShift (x sh : Int) : Int :=
  if 0 ≤ sh then x * 2 ^ sh.toNat
  else (x + 2 ^ ((-sh).toNat - 1)) / 2 ^ (-sh).toNat

end Sys2Proof.Machine
end

