-- ==== Sys2Proof/Machine/Flags.lean ====
section
/-! DEFINITION. Saturation and the one flag VQRSHL writes, FPSCR.QC (00_scope.md R18, 40_vqrshl.md R80, R82). -/

namespace Sys2Proof.Machine

/-- The least value of an element (R18, R80). -/
def satLo (size : Nat) (unsigned : Bool) : Int := if unsigned then 0 else -(2 ^ (size - 1))

/-- The greatest value of an element (R18, R80). -/
def satHi (size : Nat) (unsigned : Bool) : Int := if unsigned then 2 ^ size - 1 else 2 ^ (size - 1) - 1

/-- `SatQ(i, N, unsigned)` (R18): the clamped value and whether it was clamped. PRESUMED (log 15): the body of a library
function (G5). -/
def satQ (i : Int) (size : Nat) (unsigned : Bool) : BitVec size × Bool :=
  if satHi size unsigned < i then (BitVec.ofInt size (satHi size unsigned), true)
  else if i < satLo size unsigned then (BitVec.ofInt size (satLo size unsigned), true)
  else (BitVec.ofInt size i, false)

/-- `if sat then FPSCR.QC = '1'` (R82): set or left alone, never cleared; no other bit of FPSCR is written. -/
def State.setQcIf (s : State) (sat : Bool) : State :=
  if sat then { s with fpscr := { s.fpscr with qc := true } } else s

end Sys2Proof.Machine
end

