-- ==== Sys2Proof/Machine/Vqrshl.lean ====
section
/-! DEFINITION. VQRSHL (40_vqrshl.md): the per-element function, the loop over the elements, and the four encodings. -/

namespace Sys2Proof.Machine

/-- The per-element function (R77): the result element and whether it saturated. -/
def lane (unsigned : Bool) {size : Nat} (op cnt : BitVec size) : BitVec size × Bool :=
  satQ (roundingShift (intOf op unsigned) (shiftCount cnt)) size unsigned

/-- The per-element function at position `(r, e)` of the operands as they stand in `s` (R75 lines 14 to 22). -/
def laneOut (dt : Dt) (m n : Reg) (s : State) (r e : Nat) : BitVec (esizeOf dt) × Bool :=
  lane (unsignedOf dt) (dataElem dt m s r e) (countElem dt n s r e)

/-- One iteration `(r, e)` of the loop (R75 lines 14 to 24): reads see the writes of earlier iterations. -/
def laneStep (dt : Dt) (d m n : Reg) (s : State) (r e : Nat) : State :=
  (s.writeD (regAt d r)
    (setElem (s.readD (regAt d r)) e (esizeOf dt) (laneOut dt m n s r e).1)).setQcIf
      (laneOut dt m n s r e).2

/-- The loop over the elements of one D register (R75 line 13). -/
def elementLoop (dt : Dt) (d m n : Reg) (r : Nat) (s : State) : State :=
  (List.range (elementsOf dt)).foldl (fun s e => laneStep dt d m n s r e) s

/-- The two loops (R75 lines 12 to 24), `regs` registers per operand. -/
def vectorLoop (dt : Dt) (d m n : Reg) (regs : Nat) (s : State) : State :=
  (List.range regs).foldl (fun s r => elementLoop dt d m n r s) s

/-- `VQRSHL_A1_D` (R83): unconditional, no UNDEFINED test, one register per operand. -/
def execVqrshlA1D (dt : Dt) (d m n : Reg) (s : State) : Host.Outcome State Fault Refusal :=
  ifAdvSIMDEnabled s (.next (vectorLoop dt d m n 1 s).advancePc)

/-- `VQRSHL_A1_Q` (R84): unconditional, the UNDEFINED test, two registers per operand. -/
def execVqrshlA1Q (dt : Dt) (d m n : Reg) (s : State) : Host.Outcome State Fault Refusal :=
  ifEvenRegs d m n s (ifAdvSIMDEnabled s (.next (vectorLoop dt d m n 2 s).advancePc))

/-- `VQRSHL_T1_D` (R85): the condition, then as the A1 form. -/
def execVqrshlT1D (dt : Dt) (d m n : Reg) (s : State) : Host.Outcome State Fault Refusal :=
  ifConditionPassed .t32 s (ifAdvSIMDEnabled s (.next (vectorLoop dt d m n 1 s).advancePc))

/-- `VQRSHL_T1_Q` (R86): the condition first, so a failed condition hides an odd register (R76, D10, log 10). -/
def execVqrshlT1Q (dt : Dt) (d m n : Reg) (s : State) : Host.Outcome State Fault Refusal :=
  ifConditionPassed .t32 s
    (ifEvenRegs d m n s (ifAdvSIMDEnabled s (.next (vectorLoop dt d m n 2 s).advancePc)))

end Sys2Proof.Machine
end

