-- ==== Sys2Proof/Machine/Dispatch.lean ====
section
/-! DEFINITION. The meaning of each constructor of Instr: one arm, one direct call. -/

namespace Sys2Proof.Machine

def exec (i : Instr) (s : State) : Host.Outcome State Fault Refusal :=
  match i with
  | .vqrshlA1D dt d m n => Sys2Proof.Machine.execVqrshlA1D dt d m n s
  | .vqrshlA1Q dt d m n => Sys2Proof.Machine.execVqrshlA1Q dt d m n s
  | .vqrshlT1D dt d m n => Sys2Proof.Machine.execVqrshlT1D dt d m n s
  | .vqrshlT1Q dt d m n => Sys2Proof.Machine.execVqrshlT1Q dt d m n s

end Sys2Proof.Machine
end

