-- ==== Sys2Proof/Machine/Step.lean ====
section
/-! DEFINITION. One step of the machine (00_scope.md R5, 40_vqrshl.md R75) and the loading of one word. -/

namespace Sys2Proof.Machine

/-- One step: the alignment of the pc (20_memory.md R44), the word there (R48), its decoding (30_encoding.md R59, R60), its
meaning (R75). -/
def step (s : State) : Host.Outcome State Fault Refusal :=
  if s.pcAligned then
    match s.fetchWord with
    | none => .refused (.noProgramWord s.pc)
    | some w =>
      match decodeWord s.params.iset w with
      | .error _ => .refused (.notVqrshl w)
      | .ok i => exec i s
  else .refused (.misalignedPc s.pc)

/-- `s` with an opcode-table word loaded where the next step takes its instruction word (log 21, log 22). -/
def State.withFetchWord (s : State) (nbits w : Nat) : State := s.loadAtPc (tableWord nbits w)

end Sys2Proof.Machine
end

