-- ==== Sys2Proof/Machine/Assembler.lean ====
section
/-! DEFINITION. The assembler of 30_encoding.md section 4 (R64 to R69): from the parts of a source line to an instruction. No
step reads it: the machine sees words only. -/

namespace Sys2Proof.Machine

/-- The condition `<c>` of a source line (R65). Which condition is written puts no bits in the word. -/
inductive AsmCond where
  | absent
  | always
  | conditional
  deriving DecidableEq, Repr

/-- The width qualifier `<q>` (R65). PRESUMED (log 24, G9): it changes no VQRSHL word. -/
inductive AsmWidth where
  | absent
  | narrow
  | wide
  deriving DecidableEq, Repr

/-- The operands of the two templates (R64); the destination may be left out. -/
inductive AsmOperands where
  | dForm (d : Option Reg) (m n : Reg)
  | qForm (q : Option (BitVec 4)) (m n : BitVec 4)
  deriving DecidableEq, Repr

/-- One source line, `VQRSHL{<c>}{<q>}.<dt>` and its operands (R64). -/
structure AsmLine where
  cond : AsmCond
  width : AsmWidth
  dt : Dt
  operands : AsmOperands
  deriving DecidableEq, Repr

/-- Why a line has no word. -/
inductive AsmError where
  /-- A condition on an A1 line: "This encoding must be unconditional." (R68). -/
  | mustBeUnconditional
  deriving DecidableEq, Repr

/-- The D register number of Q register `q`: encoded "as `<Qd>`*2" (R22, R66). -/
def asmQ (q : BitVec 4) : Reg := q ++ 0#1

/-- The instruction of the operands (R66). An omitted destination is the first register written, `m` (R67; PRESUMED, log 24). -/
def asmInstr (iset : ISet) (dt : Dt) (ops : AsmOperands) : Instr :=
  match iset, ops with
  | .a32, .dForm d m n => .vqrshlA1D dt (d.getD m) m n
  | .a32, .qForm d m n => .vqrshlA1Q dt (asmQ (d.getD m)) (asmQ m) (asmQ n)
  | .t32, .dForm d m n => .vqrshlT1D dt (d.getD m) m n
  | .t32, .qForm d m n => .vqrshlT1Q dt (asmQ (d.getD m)) (asmQ m) (asmQ n)

/-- Assembling a line (R66, R68): A1 takes no condition but the always-condition, T1 takes any. -/
def assemble (iset : ISet) (line : AsmLine) : Except AsmError Instr :=
  match iset, line.cond with
  | .a32, .conditional => .error .mustBeUnconditional
  | _, _ => .ok (asmInstr iset line.dt line.operands)

end Sys2Proof.Machine
end

