-- ==== Sys2Proof/Safety.lean ====
section
/-! DEFINITION. The terms statements use: the result of a completed VQRSHL, the all-at-once reading of it, the launch premises. -/

namespace Sys2Proof.Machine

/-- What a completed VQRSHL leaves (40_vqrshl.md R75, R77, R82; 10_state.md R25, R29, R33): `t` after an operation on `regs`
registers per operand, all sources read in `s`. -/
structure VectorResult (dt : Dt) (d m n : Reg) (regs : Nat) (s t : State) : Prop where
  /-- Each destination element is the result of the per-element function at its position (R77). -/
  elements : ∀ r < regs, ∀ e < elementsOf dt,
    elem (t.readD (regAt d r)) e (esizeOf dt) = (laneOut dt m n s r e).1
  /-- QC is set if an element saturated, and kept (R82). -/
  qc : t.fpscr.qc = true ↔
    s.fpscr.qc = true ∨ ∃ r < regs, ∃ e < elementsOf dt, (laneOut dt m n s r e).2 = true
  /-- Every other D register is unchanged (R33). -/
  registers : ∀ i : Reg, (∀ r < regs, i ≠ regAt d r) → t.readD i = s.readD i
  /-- Every other bit of FPSCR is unchanged (R27). -/
  fpscrRest : t.fpscr.rest = s.fpscr.rest
  /-- The pc advances (R29; log 8). -/
  pc : t.pc = s.pc + 4#32
  /-- `env` is unchanged (R30, R33). -/
  env : t.env = s.env
  /-- The parameters are unchanged; the program text is one of them. -/
  params : t.params = s.params
  /-- Every address of the program text reads as before (R40, R48). -/
  program : ∀ a, t.params.program.wordAt a = s.params.program.wordAt a

/-- The whole D register that the elements of register `r` make, the sources read in `s`. -/
def resultWord (dt : Dt) (m n : Reg) (s : State) (r : Nat) : DWord :=
  (List.range (elementsOf dt)).foldl
    (fun acc e => setElem acc e (esizeOf dt) (laneOut dt m n s r e).1) 0#64

/-- Whether an element of the operation saturates, the sources read in `s`. -/
def anySat (dt : Dt) (m n : Reg) (regs : Nat) (s : State) : Bool :=
  (List.range regs).any fun r =>
    (List.range (elementsOf dt)).any fun e => (laneOut dt m n s r e).2

/-- The all-at-once reading of R87: both source vectors are read completely in `s`, then the destination is written. -/
def readFirst (dt : Dt) (d m n : Reg) (regs : Nat) (s : State) : State :=
  ((List.range regs).foldl (fun t r => t.writeD (regAt d r) (resultWord dt m n s r)) s).setQcIf
    (anySat dt m n regs s)

/-- The element positions `(r, e)` in the order of the loops (R75 lines 12 and 13). -/
def positions (dt : Dt) (regs : Nat) : List (Nat × Nat) :=
  (List.range regs).flatMap fun r => (List.range (elementsOf dt)).map fun e => (r, e)

/-- An operand shape that some legal encoding has: one register per operand, or two and all three numbers even (R57). -/
def legalShape (regs : Nat) (d m n : Reg) : Prop := regs = 1 ∨ regs = 2 ∧ evenRegs d m n = true

/-- The word of R66: the constant bits of a format, U at bit `uPos`, and the fields of bits 23:0, joined by shifts and ors. -/
def asmWord (base : Word) (uPos : Nat) (q : BitVec 1) (dt : Dt) (d m n : Reg) : Word :=
  base ||| dt.uBit.setWidth 32 <<< uPos ||| (d.extractLsb' 4 1).setWidth 32 <<< 22 |||
    dt.sizeBits.setWidth 32 <<< 20 ||| (n.extractLsb' 0 4).setWidth 32 <<< 16 |||
    (d.extractLsb' 0 4).setWidth 32 <<< 12 ||| (n.extractLsb' 4 1).setWidth 32 <<< 7 |||
    q.setWidth 32 <<< 6 ||| (m.extractLsb' 4 1).setWidth 32 <<< 5 ||| (m.extractLsb' 0 4).setWidth 32

/-- The launch premises of 70_reset_and_hazards.md R121 and R122 that no step may break: the program text in its canonical
form, the pc aligned, Advanced SIMD permitted. -/
def State.launched (s : State) : Bool :=
  s.params.program.wf && s.pcAligned && decide (s.advSIMDAccess = .permitted)

/-- The successful end of a run of `count` words from `base` (R123, the convention of 95_test_vectors.md only). -/
def State.atProgramEnd (base : Word) (count : Nat) (s : State) : Bool :=
  s.pc == base + BitVec.ofNat 32 (4 * count)

end Sys2Proof.Machine
end

