-- ==== Sys2Proof/Certificates/Slice0/Obligations.lean ====
section
/-! DEFINITION. The statements for the provers. Each docstring names the rules it rests on. -/

open Sys2Proof Sys2Proof.Machine

/-! ## Encoding -/

/-- The example words of R83 to R86, one per encoding, decode to the instructions those rules name. -/
def Obligations.ExampleWordsDecode : Prop :=
  decodeWord .a32 0xF2020511#32 = .ok (.vqrshlA1D .s8 0#5 1#5 2#5) ∧
  decodeWord .a32 0xF2262554#32 = .ok (.vqrshlA1Q .s32 2#5 4#5 6#5) ∧
  decodeWord .t32 0xEF155515#32 = .ok (.vqrshlT1D .s16 5#5 5#5 5#5) ∧
  decodeWord .t32 0xFF70E570#32 = .ok (.vqrshlT1Q .u64 30#5 16#5 0#5)

/-- Decoding the encoded word of any instruction, well formed or not, gives the instruction back (R51, R53, R56). -/
def Obligations.DecodeOfEncodeIsTheInstruction : Prop :=
  ∀ i : Instr, decodeWord i.iset (encode i) = .ok i

/-- Encoding what a word decodes to gives the word back: every bit of a VQRSHL word is read, and each word has one meaning
(R51, R53). -/
def Obligations.EncodeOfDecodeIsTheWord : Prop :=
  ∀ (iset : ISet) (w : Word) (i : Instr), decodeWord iset w = .ok i → i.iset = iset ∧ encode i = w

/-- Which words are VQRSHL, and of which encoding, by the masks of R52 and R54. -/
def Obligations.VqrshlWordsByMask : Prop :=
  ∀ w : Word,
    ((∃ i, decodeWord .a32 w = .ok i) ↔ w &&& 0xFE800F10#32 = 0xF2000510#32) ∧
    ((∃ dt d m n, decodeWord .a32 w = .ok (.vqrshlA1D dt d m n)) ↔
      w &&& 0xFE800F50#32 = 0xF2000510#32) ∧
    ((∃ dt d m n, decodeWord .a32 w = .ok (.vqrshlA1Q dt d m n)) ↔
      w &&& 0xFE800F50#32 = 0xF2000550#32) ∧
    ((∃ i, decodeWord .t32 w = .ok i) ↔ w &&& 0xEF800F10#32 = 0xEF000510#32) ∧
    ((∃ dt d m n, decodeWord .t32 w = .ok (.vqrshlT1D dt d m n)) ↔
      w &&& 0xEF800F50#32 = 0xEF000510#32) ∧
    ((∃ dt d m n, decodeWord .t32 w = .ok (.vqrshlT1Q dt d m n)) ↔
      w &&& 0xEF800F50#32 = 0xEF000550#32)

/-- The decode variables of R56 from the fields of the word, and the words whose decode is UNDEFINED, in the three forms of R57. -/
def Obligations.DecodeVariablesFromTheFields : Prop :=
  ∀ (iset : ISet) (w : Word) (i : Instr), decodeWord iset w = .ok i →
    unsignedOf i.dt = w.getLsbD (match iset with | .a32 => 24 | .t32 => 28) ∧
    esizeOf i.dt = 8 * 2 ^ (w.extractLsb' 20 2).toNat ∧
    elementsOf i.dt = 64 / esizeOf i.dt ∧
    i.d.toNat = 16 * (w.extractLsb' 22 1).toNat + (w.extractLsb' 12 4).toNat ∧
    i.m.toNat = 16 * (w.extractLsb' 5 1).toNat + (w.extractLsb' 0 4).toNat ∧
    i.n.toNat = 16 * (w.extractLsb' 7 1).toNat + (w.extractLsb' 16 4).toNat ∧
    i.regs = (if w.getLsbD 6 = true then 2 else 1) ∧
    (i.wellFormed = false ↔
      w.getLsbD 6 = true ∧ (w.getLsbD 12 = true ∨ w.getLsbD 0 = true ∨ w.getLsbD 16 = true)) ∧
    (i.wellFormed = false ↔ w.getLsbD 6 = true ∧ w &&& 0x00011001#32 ≠ 0#32) ∧
    (i.wellFormed = false ↔ i.regs = 2 ∧
      (i.d.toNat % 2 = 1 ∨ i.m.toNat % 2 = 1 ∨ i.n.toNat % 2 = 1))

/-- The data type table of R58: the eight rows, the field they stand in, and that no value is reserved. -/
def Obligations.DataTypeIsEncodedInUSize : Prop :=
  (∀ (iset : ISet) (w : Word) (i : Instr), decodeWord iset w = .ok i →
    i.dt = dtOf (w.extractLsb' (match iset with | .a32 => 24 | .t32 => 28) 1) (w.extractLsb' 20 2)) ∧
  (dtOf 0#1 0#2 = .s8 ∧ unsignedOf .s8 = false ∧ esizeOf .s8 = 8) ∧
  (dtOf 0#1 1#2 = .s16 ∧ unsignedOf .s16 = false ∧ esizeOf .s16 = 16) ∧
  (dtOf 0#1 2#2 = .s32 ∧ unsignedOf .s32 = false ∧ esizeOf .s32 = 32) ∧
  (dtOf 0#1 3#2 = .s64 ∧ unsignedOf .s64 = false ∧ esizeOf .s64 = 64) ∧
  (dtOf 1#1 0#2 = .u8 ∧ unsignedOf .u8 = true ∧ esizeOf .u8 = 8) ∧
  (dtOf 1#1 1#2 = .u16 ∧ unsignedOf .u16 = true ∧ esizeOf .u16 = 16) ∧
  (dtOf 1#1 2#2 = .u32 ∧ unsignedOf .u32 = true ∧ esizeOf .u32 = 32) ∧
  (dtOf 1#1 3#2 = .u64 ∧ unsignedOf .u64 = true ∧ esizeOf .u64 = 64) ∧
  (∀ (iset : ISet) (u : BitVec 1) (size : BitVec 2) (q : Bool) (d m n : Reg), ∃ w i,
    decodeWord iset w = .ok i ∧ i.dt = dtOf u size ∧ i.regs = (if q then 2 else 1) ∧
      i.d = d ∧ i.m = m ∧ i.n = n)

/-- The A1 and the T1 word of one instruction: bits 23:0 agree, and each is made from the other by the formulas of R55. -/
def Obligations.A1AndT1WordsConvert : Prop :=
  ∀ (dt : Dt) (d m n : Reg),
    let pair (a t : Instr) : Prop :=
      encode a &&& 0x00FFFFFF#32 = encode t &&& 0x00FFFFFF#32 ∧
      encode t = 0xEF000000#32 ||| dt.uBit.setWidth 32 <<< 28 ||| (encode a &&& 0x00FFFFFF#32) ∧
      encode a = 0xF2000000#32 ||| dt.uBit.setWidth 32 <<< 24 ||| (encode t &&& 0x00FFFFFF#32)
    pair (.vqrshlA1D dt d m n) (.vqrshlT1D dt d m n) ∧ pair (.vqrshlA1Q dt d m n) (.vqrshlT1Q dt d m n)

/-- The encoder, written from the boxes of the diagrams, agrees with the shift-and-or formula of R66. -/
def Obligations.EncodeIsTheAssemblersFormula : Prop :=
  ∀ (dt : Dt) (d m n : Reg),
    encode (.vqrshlA1D dt d m n) = asmWord 0xF2000510#32 24 0#1 dt d m n ∧
    encode (.vqrshlA1Q dt d m n) = asmWord 0xF2000510#32 24 1#1 dt d m n ∧
    encode (.vqrshlT1D dt d m n) = asmWord 0xEF000510#32 28 0#1 dt d m n ∧
    encode (.vqrshlT1Q dt d m n) = asmWord 0xEF000510#32 28 1#1 dt d m n

/-- An assembled line is never an UNDEFINED encoding (R66), is of the instruction set asked for, has the data type and the
registers of the line (the first one written where the destination is left out: R67, a convention outside the source, log
24), and fails only for a condition in A1 (R68). -/
def Obligations.AssembledLinesAreWellFormed : Prop :=
  ∀ (iset : ISet) (line : AsmLine),
    ((∃ e, assemble iset line = .error e) ↔ iset = .a32 ∧ line.cond = .conditional) ∧
    ∀ i, assemble iset line = .ok i →
      i.wellFormed = true ∧ i.iset = iset ∧ i.dt = line.dt ∧
      (∀ d m n, line.operands = .dForm d m n →
        i.regs = 1 ∧ i.d = d.getD m ∧ i.m = m ∧ i.n = n) ∧
      (∀ d m n, line.operands = .qForm d m n →
        i.regs = 2 ∧ i.d.toNat = 2 * (d.getD m).toNat ∧ i.m.toNat = 2 * m.toNat ∧
          i.n.toNat = 2 * n.toNat)

/-- The bytes of an instruction, and whatever follows them, decode to it and leave what follows; fewer than four bytes are
refused. The byte layout is the model's convention (R43 marks it general knowledge; log 14). -/
def Obligations.BytesOfAnInstructionDecode : Prop :=
  (∀ (i : Instr) (rest : List Byte), decodeBytes i.iset (encodeBytes i ++ rest) = .ok (i, rest)) ∧
  (∀ (iset : ISet) (bs : List Byte), decodeBytes iset bs = .error .truncated ↔ bs.length < 4) ∧
  bytesOfWord .a32 0xF2020511#32 = [0x11#8, 0x05#8, 0x02#8, 0xF2#8] ∧
  bytesOfWord .t32 0xEF020511#32 = [0x02#8, 0xEF#8, 0x11#8, 0x05#8]

/-! ## One element -/

/-- The shift count (R73): the low byte of the count element as a signed integer, -128 to 127, whatever the data type's
signedness; the bits above it are ignored. -/
def Obligations.ShiftCountIsTheSignedLowByte : Prop :=
  (∀ (dt : Dt) (n : Reg) (s : State) (r e : Nat),
    let c := elem (s.readD (regAt n r)) e (esizeOf dt)
    let low : Int := (c.toNat % 256 : Nat)
    countElem dt n s r e = c ∧
    shiftCount c = (if low < 128 then low else low - 256) ∧
    -128 ≤ shiftCount c ∧ shiftCount c ≤ 127) ∧
  (∀ (dt : Dt) (op c c' : BitVec (esizeOf dt)) (unsigned : Bool), c.toNat % 256 = c'.toNat % 256 →
    shiftCount c = shiftCount c' ∧ lane unsigned op c = lane unsigned op c')

/-- The result element is the exact shifted value clamped to the range of the type, and the flag says whether it was clamped
(R77, R78, R79, R80; the bodies of the primitives are the spec's general knowledge, log 15). -/
def Obligations.LaneClampsTheExactValue : Prop :=
  ∀ (dt : Dt) (op cnt : BitVec (esizeOf dt)),
    let u := unsignedOf dt
    let x : Int := if u then op.toNat else op.toInt
    let sh := shiftCount cnt
    let exact : Int :=
      if 0 ≤ sh then x * 2 ^ sh.toNat else (x + 2 ^ ((-sh).toNat - 1)) / 2 ^ (-sh).toNat
    let lo : Int := if u then 0 else -(2 ^ (esizeOf dt - 1))
    let hi : Int := if u then 2 ^ esizeOf dt - 1 else 2 ^ (esizeOf dt - 1) - 1
    let out := lane u op cnt
    (if u then (out.1.toNat : Int) else out.1.toInt) = max lo (min hi exact) ∧
      (out.2 = true ↔ exact < lo ∨ hi < exact)

/-- A right shift by s = 1 to 128 gives the nearest integer to the quotient, a tie going up, and never saturates (R79; the
floor of `>>` is the spec's general knowledge, log 15). -/
def Obligations.RightShiftRoundsToNearest : Prop :=
  ∀ (dt : Dt) (op cnt : BitVec (esizeOf dt)), shiftCount cnt < 0 →
    let u := unsignedOf dt
    let s := (-(shiftCount cnt)).toNat
    let v := intOf (lane u op cnt).1 u
    (lane u op cnt).2 = false ∧
      -(2 ^ (s - 1)) < v * 2 ^ s - intOf op u ∧ v * 2 ^ s - intOf op u ≤ 2 ^ (s - 1)

/-- Right shifts by the element size or more (the table of R79, and R91). -/
def Obligations.RightShiftByTheSizeOrMore : Prop :=
  ∀ (dt : Dt) (op cnt : BitVec (esizeOf dt)), shiftCount cnt ≤ -(esizeOf dt : Int) →
    (lane (unsignedOf dt) op cnt).2 = false ∧
    (unsignedOf dt = false → (lane (unsignedOf dt) op cnt).1 = 0#(esizeOf dt)) ∧
    (unsignedOf dt = true → shiftCount cnt = -(esizeOf dt : Int) →
      (lane (unsignedOf dt) op cnt).1 =
        if 2 ^ (esizeOf dt - 1) ≤ op.toNat then 1#(esizeOf dt) else 0#(esizeOf dt)) ∧
    (unsignedOf dt = true → shiftCount cnt < -(esizeOf dt : Int) →
      (lane (unsignedOf dt) op cnt).1 = 0#(esizeOf dt))

/-- The fixed-width tests of saturation (R81): none for a negative count; by the sign of the element otherwise. -/
def Obligations.SaturatesByTheFixedWidthTests : Prop :=
  ∀ (dt : Dt) (op cnt : BitVec (esizeOf dt)),
    let x := intOf op (unsignedOf dt)
    let size : Int := esizeOf dt
    let sh := shiftCount cnt
    (lane (unsignedOf dt) op cnt).2 = true ↔
      0 ≤ sh ∧
        if unsignedOf dt then 0 < x ∧ (size ≤ sh ∨ 2 ^ (size - sh).toNat ≤ x)
        else if 0 < x then size - 1 ≤ sh ∨ 2 ^ (size - 1 - sh).toNat ≤ x
        else x < 0 ∧ (size ≤ sh ∨ x < -(2 ^ (size - 1 - sh).toNat))

/-- The identities of R91 on one element: a zero element stays zero for every count; a zero count copies; a signed count of
-1 halves the bounds. -/
def Obligations.LaneIdentities : Prop :=
  ∀ (dt : Dt) (cnt : BitVec (esizeOf dt)),
    lane (unsignedOf dt) 0#(esizeOf dt) cnt = (0#(esizeOf dt), false) ∧
    (shiftCount cnt = 0 → ∀ op, lane (unsignedOf dt) op cnt = (op, false)) ∧
    (unsignedOf dt = false → shiftCount cnt = -1 →
      (lane false (BitVec.ofInt (esizeOf dt) (-(2 ^ (esizeOf dt - 1)))) cnt).1 =
          BitVec.ofInt (esizeOf dt) (-(2 ^ (esizeOf dt - 2))) ∧
        (lane false (BitVec.ofInt (esizeOf dt) (2 ^ (esizeOf dt - 1) - 1)) cnt).1 =
          BitVec.ofInt (esizeOf dt) (2 ^ (esizeOf dt - 2)))

/-! ## The instruction -/

/-- The D forms complete (R83, R85): where Advanced SIMD is permitted, A1_D always and T1_D when its condition passes, with
the result of every element, the flag, and nothing else changed. The pc's advance is the spec's own addition (D1, log 8). -/
def Obligations.DFormsCompleteWithTheVectorResult : Prop :=
  ∀ (dt : Dt) (d m n : Reg) (s : State), s.advSIMDAccess = .permitted →
    (∃ t, exec (.vqrshlA1D dt d m n) s = .next t ∧ VectorResult dt d m n 1 s t) ∧
    (s.conditionPassed .t32 = true →
      ∃ t, exec (.vqrshlT1D dt d m n) s = .next t ∧ VectorResult dt d m n 1 s t)

/-- The Q forms complete (R84, R86): where Advanced SIMD is permitted and d, m, n are even, A1_Q always and T1_Q when its
condition passes, with the result of every element of both registers, the flag, and nothing else changed. The pc's advance is
the spec's own addition (D1, log 8). -/
def Obligations.QFormsCompleteWithTheVectorResult : Prop :=
  ∀ (dt : Dt) (d m n : Reg) (s : State), s.advSIMDAccess = .permitted →
    d.toNat % 2 = 0 → m.toNat % 2 = 0 → n.toNat % 2 = 0 →
    (∃ t, exec (.vqrshlA1Q dt d m n) s = .next t ∧ VectorResult dt d m n 2 s t) ∧
    (s.conditionPassed .t32 = true →
      ∃ t, exec (.vqrshlT1Q dt d m n) s = .next t ∧ VectorResult dt d m n 2 s t)

/-- A T1 instruction whose condition fails only advances the pc, whatever its registers and whatever the enable check would
answer (R33, R75 lines 1 to 3, R76; D10, log 10; the pc: D1, log 8). -/
def Obligations.FailedConditionOnlyAdvancesThePc : Prop :=
  ∀ (dt : Dt) (d m n : Reg) (s : State), s.conditionPassed .t32 = false →
    exec (.vqrshlT1D dt d m n) s = .next { s with pc := s.pc + 4#32 } ∧
    exec (.vqrshlT1Q dt d m n) s = .next { s with pc := s.pc + 4#32 }

/-- The three faults, each exactly when its rule says (R101, R102, R103), and no other (R104). The order condition, UNDEFINED
test, enable check is the spec's decision (R106, D10, D11; log 10), and so is the form of a fault, its cause and the pc (R100,
D2; log 9). -/
def Obligations.StepFaultsExactlyWhenTheRulesSay : Prop :=
  ∀ (s : State) (w : Word) (i : Instr),
    s.pcAligned = true → s.fetchWord = some w → decodeWord s.params.iset w = .ok i →
    let passed := s.conditionPassed s.params.iset = true
    let oddQ := w.getLsbD 6 = true ∧
      (w.getLsbD 12 = true ∨ w.getLsbD 0 = true ∨ w.getLsbD 16 = true)
    (step s = .fault (.undefined .uDecode s.pc) ↔ passed ∧ oddQ) ∧
    (step s = .fault (.undefined .uEnable s.pc) ↔ passed ∧ ¬oddQ ∧ s.advSIMDAccess = .undefined) ∧
    (step s = .fault (.hypTrap s.pc) ↔ passed ∧ ¬oddQ ∧ s.advSIMDAccess = .hypTrap) ∧
    ∀ f, step s = .fault f →
      f = .undefined .uDecode s.pc ∨ f = .undefined .uEnable s.pc ∨ f = .hypTrap s.pc

/-- No fault depends on data (R89): two states that differ in D registers and FPSCR alone fault alike. -/
def Obligations.FaultsDoNotDependOnData : Prop :=
  ∀ (i : Instr) (s s' : State), s'.pc = s.pc → s'.env = s.env → s'.params = s.params →
    ∀ f, exec i s = .fault f ↔ exec i s' = .fault f

/-- The flag rule (R82): FPSCR is written only to set QC, exactly when the condition passes and an element saturates; no
other flag is written (those the condition tests are in `env`). -/
def Obligations.QcIsSetExactlyWhenAnElementSaturates : Prop :=
  ∀ (i : Instr) (s t : State), exec i s = .next t →
    let saturates := s.conditionPassed i.iset = true ∧
      ∃ r < i.regs, ∃ e < elementsOf i.dt, (laneOut i.dt i.m i.n s r e).2 = true
    (saturates → t.fpscr = { s.fpscr with qc := true }) ∧
    (¬saturates → t.fpscr = s.fpscr) ∧
    t.env.flags = s.env.flags

/-- A vector whose every count byte is zero is copied whole, and FPSCR is left alone (R91). -/
def Obligations.ZeroCountsCopyTheVector : Prop :=
  ∀ (i : Instr) (s t : State), s.conditionPassed i.iset = true → exec i s = .next t →
    (∀ r < i.regs, ∀ e < elementsOf i.dt, (countElem i.dt i.n s r e).toNat % 256 = 0) →
    (∀ r < i.regs, t.readD (regAt i.d r) = s.readD (regAt i.m r)) ∧ t.fpscr = s.fpscr

/-- The destination is a function of the two sources alone (R25): no bit of its old value survives and no other register
counts; nor does the old QC, but for its own stickiness. -/
def Obligations.DestinationDependsOnTheSourcesAlone : Prop :=
  ∀ (i : Instr) (s s' t : State),
    (∀ r < i.regs, s'.readD (regAt i.m r) = s.readD (regAt i.m r)) →
    (∀ r < i.regs, s'.readD (regAt i.n r) = s.readD (regAt i.n r)) →
    s'.pc = s.pc → s'.env = s.env → s'.params = s.params →
    s.conditionPassed i.iset = true → exec i s = .next t →
    ∃ t', exec i s' = .next t' ∧
      (∀ r < i.regs, t'.readD (regAt i.d r) = t.readD (regAt i.d r)) ∧
      (s'.fpscr.qc = s.fpscr.qc → t'.fpscr.qc = t.fpscr.qc)

/-- A Q form changes one Q register: every other pair of D registers reads as before (R22, R24, R33). -/
def Obligations.QFormChangesOneQRegister : Prop :=
  ∀ (dt : Dt) (d m n : Reg) (s t : State),
    exec (.vqrshlA1Q dt d m n) s = .next t ∨ exec (.vqrshlT1Q dt d m n) s = .next t →
    ∀ q : BitVec 4, qBase q ≠ d → t.readQ q = s.readQ q

/-- The sequential loops of R75 and the all-at-once reading of R87 leave the same state, for every legal encoding and every
overlap of its registers. -/
def Obligations.SequentialLoopIsReadingFirst : Prop :=
  ∀ (dt : Dt) (d m n : Reg) (regs : Nat) (s : State), legalShape regs d m n →
    vectorLoop dt d m n regs s = readFirst dt d m n regs s

/-- The order in which the elements are processed is not observable (R90): every order of the positions gives the state the
loops give. -/
def Obligations.ElementOrderIsNotObservable : Prop :=
  ∀ (dt : Dt) (d m n : Reg) (regs : Nat) (s : State) (order : List (Nat × Nat)),
    legalShape regs d m n → order.Perm (positions dt regs) →
    order.foldl (fun s p => laneStep dt d m n s p.1 p.2) s = vectorLoop dt d m n regs s

/-- A completed A1_Q is two A1_D operations, on (d, m, n) and then on (d+1, m+1, n+1), but for one advance of the pc (R84
corner cases). -/
def Obligations.QFormIsTwoDForms : Prop :=
  ∀ (dt : Dt) (d m n : Reg) (s t : State), exec (.vqrshlA1Q dt d m n) s = .next t →
    ∃ t₁ t₂, exec (.vqrshlA1D dt d m n) s = .next t₁ ∧
      exec (.vqrshlA1D dt (d + 1#5) (m + 1#5) (n + 1#5)) t₁ = .next t₂ ∧
      t = { t₂ with pc := s.pc + 4#32 }

/-- The A1 and the T1 form of an instruction have the same outcome where the T1 condition passes (R83 to R86). -/
def Obligations.A1AndT1HaveOneEffect : Prop :=
  ∀ (dt : Dt) (d m n : Reg) (s : State), s.conditionPassed .t32 = true →
    exec (.vqrshlT1D dt d m n) s = exec (.vqrshlA1D dt d m n) s ∧
    exec (.vqrshlT1Q dt d m n) s = exec (.vqrshlA1Q dt d m n) s

/-! ## The step -/

/-- Where the word at an aligned pc decodes to an instruction, the step is that instruction's meaning and nothing else (R59,
R75; the fetch is the model's, log 13). -/
def Obligations.StepRunsTheDecodedInstruction : Prop :=
  ∀ (s : State) (w : Word) (i : Instr),
    s.pcAligned = true → s.params.program.wordAt s.pc.toNat = some w →
    decodeWord s.params.iset w = .ok i → step s = exec i s

/-- A step is refused exactly for a misaligned pc (R44, D8), no word at the pc (R48, log 13), or a word that is not VQRSHL
in this instruction set (R60, D9), each by its own name, and for nothing else. -/
def Obligations.StepRefusesExactlyWhen : Prop :=
  ∀ (s : State) (r : Refusal), step s = .refused r ↔
    (s.pc.toNat % (if s.params.iset = .a32 then 4 else 2) ≠ 0 ∧ r = .misalignedPc s.pc) ∨
    (s.pc.toNat % (if s.params.iset = .a32 then 4 else 2) = 0 ∧
      ((s.params.program.wordAt s.pc.toNat = none ∧ r = .noProgramWord s.pc) ∨
        ∃ w, s.params.program.wordAt s.pc.toNat = some w ∧ r = .notVqrshl w ∧
          (s.params.iset = .a32 → w &&& 0xFE800F10#32 ≠ 0xF2000510#32) ∧
          (s.params.iset = .t32 → w &&& 0xEF800F10#32 ≠ 0xEF000510#32)))

/-- Every step that completes advances the pc by 4, keeps env, the parameters and the rest of FPSCR, never clears QC, leaves
the pc aligned, and changes at most two D registers, a pair that starts at the destination of the decoded instruction (R26,
R27, R29, R33). The pc's clauses are the spec's additions (D1, D8; log 8, log 11). -/
def Obligations.CompletedStepChangesOnlyTheDestination : Prop :=
  ∀ s t : State, step s = .next t →
    t.pc = s.pc + 4#32 ∧ t.pcAligned = true ∧ t.env = s.env ∧ t.params = s.params ∧
    t.fpscr.rest = s.fpscr.rest ∧ (s.fpscr.qc = true → t.fpscr.qc = true) ∧
    ∃ w i, s.fetchWord = some w ∧ decodeWord s.params.iset w = .ok i ∧
      ∀ j : Reg, (∀ r < i.regs, j ≠ regAt i.d r) → t.readD j = s.readD j

/-- The launch premises are kept by every step that completes (R121, R122): the program text canonical, the pc aligned,
Advanced SIMD permitted. -/
def Obligations.LaunchPremisesAreKept : Prop :=
  ∀ s t : State, s.launched = true → step s = .next t → t.launched = true

/-- A run of `k` completed steps ends 4 * k bytes after its start, the end of R123 for `k` consecutive words, with the launch
premises kept and QC never cleared (R26, R92, R121; the pc: D1, log 8; the end of a run: D21). -/
def Obligations.CompletedRunEndsPastItsWords : Prop :=
  ∀ (k : Nat) (s t : State), Host.Core.run Sys2Proof.core k s = .next t →
    t.atProgramEnd s.pc k = true ∧ t.env = s.env ∧ t.params = s.params ∧
    (s.fpscr.qc = true → t.fpscr.qc = true) ∧ (s.launched = true → t.launched = true)

/-- The model's start state meets the launch premises: its values are DESIGN CHOICES (log 17 to 21), not the spec's. -/
def Obligations.StartStateMeetsTheLaunchPremises : Prop :=
  State.reset.launched = true

/-- From a launched state, a step at a well-formed VQRSHL word completes, whatever the data (R89, R121). -/
def Obligations.LaunchedStepCompletes : Prop :=
  ∀ (s : State) (w : Word) (i : Instr), s.launched = true → s.fetchWord = some w →
    decodeWord s.params.iset w = .ok i → i.wellFormed = true → ∃ t, step s = .next t

/-- A loaded opcode-table word is what the next step runs, and loading changes the pc's alignment, the instruction set and
one address of the program text alone. The loading is the model's (log 21, log 22). -/
def Obligations.LoadedWordIsRunNext : Prop :=
  ∀ (s : State) (iset : ISet) (w : Word) (i : Instr), decodeWord iset w = .ok i →
    let t := s.withFetchWord 32 w.toNat
    step t = exec i t ∧ decodeTableWord 32 w.toNat = some i ∧
    t.d = s.d ∧ t.fpscr = s.fpscr ∧ t.env = s.env ∧
    t.params.advSIMDAccess = s.params.advSIMDAccess ∧ t.params.condPassed = s.params.condPassed ∧
    t.params.iset = iset ∧
    (s.pc.toNat % 4 = 0 → t.pc = s.pc) ∧
    (∀ a, a ≠ t.pc.toNat → t.params.program.wordAt a = s.params.program.wordAt a) ∧
    (s.params.program.wf = true → t.params.program.wf = true)

/-- The two parameters held as tables lose no function (R9, R10): for every function of the state the spec allows, every
environment (no step changes it) and every list of addresses, there are tables that answer as it does there. -/
def Obligations.ParameterTablesLoseNoFunction : Prop :=
  ∀ (access : Env → AdvSIMDOutcome) (cond : Word × Env → Bool) (s : State) (pcs : List Word),
    ∃ p : Params, p.iset = s.params.iset ∧ p.program = s.params.program ∧
      ∀ (t : State) (pc : Word), pc ∈ pcs → t = { s with params := p, pc := pc } →
        t.advSIMDAccess = access s.env ∧ t.conditionPassed .t32 = cond (pc, s.env)
end

