-- ==== Sys2Proof/Laws/Arith.lean ====
section
/-! SUPPORT. The integers behind an element (00_scope.md R14, R18; 40_vqrshl.md R73, R78 to R80). -/

namespace Sys2Proof.Machine

/-- A power of two is twice the one before it. -/
theorem two_pow_pred {size : Nat} (h : 0 < size) : (2 : Int) ^ size = 2 * 2 ^ (size - 1) := by
  obtain ⟨k, rfl⟩ : ∃ k, size = k + 1 := ⟨size - 1, by omega⟩
  rw [Nat.add_sub_cancel, pow_succ, mul_comm]

/-- The value of an element lies in the range of its type (R14, R80). -/
theorem intOf_range {size : Nat} (x : BitVec size) (unsigned : Bool) :
    satLo size unsigned ≤ intOf x unsigned ∧ intOf x unsigned ≤ satHi size unsigned := by
  cases unsigned
  · have h1 := BitVec.le_toInt x
    have h2 := BitVec.toInt_lt (x := x)
    simp only [satLo, satHi, intOf, Bool.false_eq_true, if_false]
    omega
  · have h1 : (x.toNat : Int) < 2 ^ size := by exact_mod_cast x.isLt
    simp only [satLo, satHi, intOf, if_true]
    omega

/-- An integer in the range of a type is the value of its truncation (R14). -/
theorem intOf_ofInt {size : Nat} (h : 0 < size) (unsigned : Bool) {i : Int}
    (hlo : satLo size unsigned ≤ i) (hhi : i ≤ satHi size unsigned) :
    intOf (BitVec.ofInt size i) unsigned = i := by
  have hp := two_pow_pred h
  cases unsigned
  · simp only [satLo, satHi, intOf, Bool.false_eq_true, if_false] at *
    rw [BitVec.toInt_ofInt_eq_self h] <;> omega
  · simp only [satLo, satHi, intOf, if_true] at *
    rw [BitVec.toNat_ofInt]
    have : i % ((2 ^ size : Nat) : Int) = i := Int.emod_eq_of_lt hlo (by push_cast; omega)
    rw [this]; omega

/-- The bounds are in order. -/
theorem satLo_le_satHi (size : Nat) (unsigned : Bool) :
    satLo size unsigned ≤ satHi size unsigned :=
  (intOf_range (0#size) unsigned).1.trans (intOf_range (0#size) unsigned).2

/-- Whether `SatQ` clamps (R18). -/
theorem satQ_flag (i : Int) (size : Nat) (unsigned : Bool) :
    (satQ i size unsigned).2 = true ↔ i < satLo size unsigned ∨ satHi size unsigned < i := by
  simp only [satQ]
  split <;> [skip; split] <;> simp_all

/-- The value `SatQ` returns (R18). -/
theorem satQ_value {size : Nat} (h : 0 < size) (i : Int) (unsigned : Bool) :
    intOf (satQ i size unsigned).1 unsigned =
      if satHi size unsigned < i then satHi size unsigned
      else if i < satLo size unsigned then satLo size unsigned else i := by
  have hle := satLo_le_satHi size unsigned
  simp only [satQ]
  split
  · exact intOf_ofInt h unsigned hle le_rfl
  · split
    · exact intOf_ofInt h unsigned le_rfl hle
    · exact intOf_ofInt h unsigned (by omega) (by omega)

/-- An element is its value. -/
theorem eq_of_intOf_eq {size : Nat} {x y : BitVec size} (unsigned : Bool)
    (h : intOf x unsigned = intOf y unsigned) : x = y := by
  cases unsigned
  · exact BitVec.eq_of_toInt_eq (by simpa [intOf] using h)
  · exact BitVec.eq_of_toNat_eq (by simpa [intOf] using h)

/-- A shift count lies in -128 .. 127 (R73). -/
theorem shiftCount_range {size : Nat} (cnt : BitVec size) :
    -128 ≤ shiftCount cnt ∧ shiftCount cnt ≤ 127 := by
  have h1 := BitVec.le_toInt (cnt.extractLsb' 0 8)
  have h2 := BitVec.toInt_lt (x := cnt.extractLsb' 0 8)
  simp only [shiftCount]
  omega

/-- A shift by a count >= 0 (R78). -/
theorem roundingShift_left {x sh : Int} (h : 0 ≤ sh) : roundingShift x sh = x * 2 ^ sh.toNat := by
  simp [roundingShift, h]

/-- A shift by a count < 0, the right shift of `k + 1` places (R79). -/
theorem roundingShift_right (x : Int) {sh : Int} (k : Nat) (h : sh = -(k + 1 : Int)) :
    roundingShift x sh = (x + 2 ^ k) / 2 ^ (k + 1) := by
  have h1 : ¬ 0 ≤ sh := by omega
  have h2 : (-sh).toNat = k + 1 := by omega
  simp [roundingShift, h1, h2]

end Sys2Proof.Machine
end

