-- ==== Sys2Proof/Laws/Decode.lean ====
section
/-! SUPPORT. What the decoder answers (30_encoding.md R56, R59). -/

namespace Sys2Proof

/-- Whether a word has the constant boxes of the class of an instruction set. -/
def isClass : ISet → Word → Bool
  | .a32, w => isA1 w
  | .t32, w => isT1 w

/-- Everything a decoded word says of its instruction (R56). -/
theorem decodeWord_ok {iset : ISet} {w : Word} {i : Instr} (h : decodeWord iset w = .ok i) :
    isClass iset w = true ∧ i.iset = iset ∧ i.dt = dtOf (fieldU iset w) (fieldSize w) ∧
      i.d = fieldD w ∧ i.m = fieldM w ∧ i.n = fieldN w ∧
      i.regs = (if fieldQ w = 0#1 then 1 else 2) ∧
      i.wellFormed = (fieldQ w == 0#1 || evenRegs (fieldD w) (fieldM w) (fieldN w)) := by
  cases iset <;>
  · simp only [decodeWord] at h
    split at h
    · next hc =>
      split at h <;>
      · next hq =>
        obtain rfl := Except.ok.inj h
        simp [isClass, hc, Instr.iset, Instr.dt, Instr.d, Instr.m, Instr.n, Instr.regs,
          Instr.wellFormed, hq]
    · exact absurd h (by simp)

/-- A word of the class decodes. -/
theorem decodeWord_of_isClass {iset : ISet} {w : Word} (h : isClass iset w = true) :
    ∃ i, decodeWord iset w = .ok i := by
  cases iset <;>
  · simp only [isClass] at h
    simp only [decodeWord, h, if_true]
    split <;> exact ⟨_, rfl⟩

/-- A word outside the class is refused by name (R60). -/
theorem decodeWord_of_not_isClass {iset : ISet} {w : Word} (h : isClass iset w = false) :
    decodeWord iset w = .error (.notVqrshl w) := by
  cases iset <;> simp_all [isClass, decodeWord]

/-- The data type's fields are read back. -/
theorem dtOf_bits (dt : Dt) : dtOf dt.uBit dt.sizeBits = dt := by cases dt <;> decide

theorem uBit_dtOf (u : BitVec 1) (size : BitVec 2) : (dtOf u size).uBit = u := by
  revert u size; decide

theorem sizeBits_dtOf (u : BitVec 1) (size : BitVec 2) : (dtOf u size).sizeBits = size := by
  revert u size; decide

end Sys2Proof
end

