-- ==== Sys2Proof/Laws/Elem.lean ====
section
/-! SUPPORT. The element accessors (00_scope.md R15, 10_state.md R23): read after write, and a register is its elements. -/

namespace Sys2Proof.Machine

/-- Bit `k` of `setElem`: the written element inside its range, the old bit outside it. -/
theorem getLsbD_setElem (v : DWord) (e size : Nat) (x : BitVec size) (k : Nat) (hk : k < 64) :
    (setElem v e size x).getLsbD k =
      if e * size ≤ k ∧ k < e * size + size then x.getLsbD (k - e * size) else v.getLsbD k := by
  simp only [setElem, elemMask, BitVec.getLsbD_or, BitVec.getLsbD_and, BitVec.getLsbD_not,
    BitVec.getLsbD_shiftLeft, BitVec.getLsbD_setWidth, BitVec.getLsbD_allOnes, hk]
  by_cases h1 : e * size ≤ k
  · by_cases h2 : k < e * size + size
    · have h3 : k - e * size < size := by omega
      have h4 : k - e * size < 64 := by omega
      simp [h1, h2, h3, h4, Nat.not_lt.mpr h1]
    · have h3 : ¬ k - e * size < size := by omega
      have h5 : size ≤ k - e * size := by omega
      simp [h1, h2, h3, Nat.not_lt.mpr h1, BitVec.getLsbD_of_ge x _ h5]
  · simp [h1, Nat.lt_of_not_le h1]

/-- Bit `k` of an element. -/
theorem getLsbD_elem (v : DWord) (e size k : Nat) :
    (elem v e size).getLsbD k = (decide (k < size) && v.getLsbD (e * size + k)) := by
  simp [elem]

/-- An element reads what was written to it. -/
theorem elem_setElem_same (v : DWord) (e size : Nat) (x : BitVec size) (h : e * size + size ≤ 64) :
    elem (setElem v e size x) e size = x := by
  apply BitVec.eq_of_getLsbD_eq
  intro k hk
  rw [getLsbD_elem, getLsbD_setElem _ _ _ _ _ (by omega)]
  simp [hk]

/-- Writing one element leaves the others. -/
theorem elem_setElem_other (v : DWord) (e f size : Nat) (x : BitVec size) (hne : f ≠ e)
    (h : f * size + size ≤ 64) : elem (setElem v e size x) f size = elem v f size := by
  apply BitVec.eq_of_getLsbD_eq
  intro k hk
  rw [getLsbD_elem, getLsbD_elem, getLsbD_setElem _ _ _ _ _ (by omega)]
  have : ¬ (e * size ≤ f * size + k ∧ f * size + k < e * size + size) := by
    rintro ⟨h1, h2⟩
    rcases Nat.lt_or_gt_of_ne hne with h3 | h3
    · have := Nat.mul_le_mul_right size (show f + 1 ≤ e from h3)
      rw [Nat.add_mul] at this; omega
    · have := Nat.mul_le_mul_right size (show e + 1 ≤ f from h3)
      rw [Nat.add_mul] at this; omega
  simp [this]

/-- An element of a data type lies inside the 64 bits. -/
theorem elem_in_range (dt : Dt) {e : Nat} (h : e < elementsOf dt) :
    e * esizeOf dt + esizeOf dt ≤ 64 := by
  cases dt <;> simp only [elementsOf, esizeOf] at * <;> omega

/-- A D register is its elements: every bit belongs to one (R23, R25). -/
theorem eq_of_elem_eq (dt : Dt) (v w : DWord)
    (h : ∀ e < elementsOf dt, elem v e (esizeOf dt) = elem w e (esizeOf dt)) : v = w := by
  have hpos : 0 < esizeOf dt := by cases dt <;> decide
  have hmul : elementsOf dt * esizeOf dt = 64 := by cases dt <;> rfl
  apply BitVec.eq_of_getLsbD_eq
  intro k hk
  have he : k / esizeOf dt < elementsOf dt := by
    rw [Nat.div_lt_iff_lt_mul hpos, hmul]; exact hk
  have hbit := congrArg (fun b => b.getLsbD (k % esizeOf dt)) (h _ he)
  simp only [getLsbD_elem, Nat.mod_lt _ hpos, decide_true, Bool.true_and, Nat.div_add_mod'] at hbit
  exact hbit

end Sys2Proof.Machine
end

