-- ==== Sys2Proof/Laws/State.lean ====
section
/-! SUPPORT. One lemma per field per update of the state. -/

namespace Sys2Proof.Machine

variable (s : State) (i : Reg) (v : DWord) (b : Bool)

@[simp] theorem State.writeD_fpscr : (s.writeD i v).fpscr = s.fpscr := rfl
@[simp] theorem State.writeD_pc : (s.writeD i v).pc = s.pc := rfl
@[simp] theorem State.writeD_env : (s.writeD i v).env = s.env := rfl
@[simp] theorem State.writeD_params : (s.writeD i v).params = s.params := rfl

@[simp] theorem State.advancePc_d : s.advancePc.d = s.d := rfl
@[simp] theorem State.advancePc_fpscr : s.advancePc.fpscr = s.fpscr := rfl
@[simp] theorem State.advancePc_pc : s.advancePc.pc = s.pc + 4#32 := rfl
@[simp] theorem State.advancePc_env : s.advancePc.env = s.env := rfl
@[simp] theorem State.advancePc_params : s.advancePc.params = s.params := rfl
@[simp] theorem State.advancePc_readD : s.advancePc.readD i = s.readD i := rfl

@[simp] theorem State.setQcIf_d : (s.setQcIf b).d = s.d := by cases b <;> rfl
@[simp] theorem State.setQcIf_qc : (s.setQcIf b).fpscr.qc = (s.fpscr.qc || b) := by
  cases b <;> simp [State.setQcIf]
@[simp] theorem State.setQcIf_rest : (s.setQcIf b).fpscr.rest = s.fpscr.rest := by cases b <;> rfl
@[simp] theorem State.setQcIf_pc : (s.setQcIf b).pc = s.pc := by cases b <;> rfl
@[simp] theorem State.setQcIf_env : (s.setQcIf b).env = s.env := by cases b <;> rfl
@[simp] theorem State.setQcIf_params : (s.setQcIf b).params = s.params := by cases b <;> rfl
@[simp] theorem State.setQcIf_readD : (s.setQcIf b).readD i = s.readD i := by cases b <;> rfl

/-- A register reads what was written to it (R21: none is hardwired). -/
@[simp] theorem State.readD_writeD_same : (s.writeD i v).readD i = v := by
  simp [State.readD, State.writeD]

/-- Distinct D registers share no bits (R24). -/
theorem State.readD_writeD_other {i j : Reg} (h : j ≠ i) : (s.writeD i v).readD j = s.readD j := by
  have : i.toNat ≠ j.toNat := fun e => h (BitVec.eq_of_toNat_eq e.symm)
  simp [State.readD, State.writeD, this]

/-- A write seen from any register. -/
theorem State.readD_writeD (j : Reg) : (s.writeD i v).readD j = if j = i then v else s.readD j := by
  split
  · next h => subst h; exact State.readD_writeD_same s j v
  · next h => exact State.readD_writeD_other s v h

/-- Two states with the same registers, FPSCR, pc, env and parameters are one. -/
theorem State.eq_of_reads {s t : State} (hd : ∀ j, s.readD j = t.readD j) (hf : s.fpscr = t.fpscr)
    (hp : s.pc = t.pc) (he : s.env = t.env) (ha : s.params = t.params) : s = t := by
  cases s; cases t
  simp only [State.mk.injEq] at *
  refine ⟨Vector.ext fun k hk => ?_, hf, hp, he, ha⟩
  have := hd (BitVec.ofNat 5 k)
  simpa [State.readD, Nat.mod_eq_of_lt hk] using this

end Sys2Proof.Machine
end

