-- ==== Sys2Proof/Laws/Loop.lean ====
section
/-! SUPPORT. What one iteration and one register's loop of VQRSHL do (40_vqrshl.md R75, R87). -/

namespace Sys2Proof.Machine

variable (dt : Dt) (d m n : Reg)

@[simp] theorem laneStep_pc (s : State) (r e : Nat) : (laneStep dt d m n s r e).pc = s.pc := by
  simp [laneStep]

@[simp] theorem laneStep_env (s : State) (r e : Nat) : (laneStep dt d m n s r e).env = s.env := by
  simp [laneStep]

@[simp] theorem laneStep_params (s : State) (r e : Nat) :
    (laneStep dt d m n s r e).params = s.params := by
  simp [laneStep]

@[simp] theorem laneStep_rest (s : State) (r e : Nat) :
    (laneStep dt d m n s r e).fpscr.rest = s.fpscr.rest := by
  simp [laneStep]

/-- QC after one iteration (R75 line 24). -/
@[simp] theorem laneStep_qc (s : State) (r e : Nat) :
    (laneStep dt d m n s r e).fpscr.qc = (s.fpscr.qc || (laneOut dt m n s r e).2) := by
  simp [laneStep]

/-- The registers after one iteration (R75 line 23): one element of one register is replaced. -/
theorem laneStep_readD (s : State) (r e : Nat) (i : Reg) :
    (laneStep dt d m n s r e).readD i =
      if i = regAt d r then
        setElem (s.readD (regAt d r)) e (esizeOf dt) (laneOut dt m n s r e).1
      else s.readD i := by
  simp [laneStep, State.readD_writeD]

/-- An element after one iteration: the result at its own position, else as before. -/
theorem laneStep_elem (s : State) (r e f : Nat) (i : Reg) (hf : f < elementsOf dt) :
    elem ((laneStep dt d m n s r e).readD i) f (esizeOf dt) =
      if i = regAt d r ∧ f = e then (laneOut dt m n s r e).1
      else elem (s.readD i) f (esizeOf dt) := by
  rw [laneStep_readD]
  by_cases hi : i = regAt d r
  · subst hi
    by_cases hfe : f = e
    · subst hfe
      simp [elem_setElem_same _ _ _ _ (elem_in_range dt hf)]
    · simp [hfe, elem_setElem_other _ _ _ _ _ hfe (elem_in_range dt hf)]
  · simp [hi]

/-- The result at a position depends on one element of the data and one of the counts (R77). -/
theorem laneOut_congr {s t : State} {r e : Nat}
    (hm : elem (t.readD (regAt m r)) e (esizeOf dt) = elem (s.readD (regAt m r)) e (esizeOf dt))
    (hn : elem (t.readD (regAt n r)) e (esizeOf dt) = elem (s.readD (regAt n r)) e (esizeOf dt)) :
    laneOut dt m n t r e = laneOut dt m n s r e := by
  simp only [laneOut, dataElem, countElem, hm, hn]

/-- The loop over the first `k` elements of register `r` (R87): those elements of `D[d+r]` are the results on the operands as
they stand in `s`, all else is as before, and QC gathers the saturations. -/
theorem elementLoop_prefix (r k : Nat) (hk : k ≤ elementsOf dt) (s : State) :
    let t := (List.range k).foldl (fun s e => laneStep dt d m n s r e) s
    (∀ f < elementsOf dt, elem (t.readD (regAt d r)) f (esizeOf dt) =
        if f < k then (laneOut dt m n s r f).1 else elem (s.readD (regAt d r)) f (esizeOf dt)) ∧
      (∀ i, i ≠ regAt d r → t.readD i = s.readD i) ∧
      (t.fpscr.qc = true ↔ s.fpscr.qc = true ∨ ∃ e < k, (laneOut dt m n s r e).2 = true) ∧
      t.fpscr.rest = s.fpscr.rest ∧ t.pc = s.pc ∧ t.env = s.env ∧ t.params = s.params := by
  induction k with
  | zero => simp
  | succ k ih =>
    have hk' : k < elementsOf dt := hk
    obtain ⟨h1, h2, h3, h4, h5, h6, h7⟩ := ih hk'.le
    simp only [List.range_succ, List.foldl_append, List.foldl_cons, List.foldl_nil]
    generalize (List.range k).foldl (fun s e => laneStep dt d m n s r e) s = t at *
    have same : ∀ i : Reg, elem (t.readD i) k (esizeOf dt) = elem (s.readD i) k (esizeOf dt) := by
      intro i
      by_cases hi : i = regAt d r
      · subst hi; simp [h1 k hk']
      · rw [h2 i hi]
    have hout : laneOut dt m n t r k = laneOut dt m n s r k := laneOut_congr dt m n (same _) (same _)
    refine ⟨fun f hf => ?_, fun i hi => ?_, ?_, ?_, ?_, ?_, ?_⟩
    · rw [laneStep_elem dt d m n t r k f _ hf]
      by_cases hfk : f = k
      · subst hfk; simp [hout]
      · have : f < k + 1 ↔ f < k := by omega
        simp [hfk, this, h1 f hf]
    · rw [laneStep_readD, if_neg hi, h2 i hi]
    · rw [laneStep_qc, Bool.or_eq_true, h3, hout, or_assoc]
      refine or_congr_right ⟨?_, ?_⟩
      · rintro (⟨e, he, hs⟩ | hs)
        · exact ⟨e, by omega, hs⟩
        · exact ⟨k, by omega, hs⟩
      · rintro ⟨e, he, hs⟩
        rcases Nat.lt_succ_iff_lt_or_eq.mp he with h | rfl
        · exact .inl ⟨e, h, hs⟩
        · exact .inr hs
    all_goals simp [*]

/-- The loop over the elements of register `r` (R75 line 13). -/
theorem elementLoop_elem (r : Nat) (s : State) {e : Nat} (he : e < elementsOf dt) :
    elem ((elementLoop dt d m n r s).readD (regAt d r)) e (esizeOf dt) =
      (laneOut dt m n s r e).1 := by
  simpa [elementLoop, he] using (elementLoop_prefix dt d m n r _ le_rfl s).1 e he

theorem elementLoop_other (r : Nat) (s : State) {i : Reg} (hi : i ≠ regAt d r) :
    (elementLoop dt d m n r s).readD i = s.readD i :=
  (elementLoop_prefix dt d m n r _ le_rfl s).2.1 i hi

theorem elementLoop_qc (r : Nat) (s : State) :
    (elementLoop dt d m n r s).fpscr.qc = true ↔
      s.fpscr.qc = true ∨ ∃ e < elementsOf dt, (laneOut dt m n s r e).2 = true :=
  (elementLoop_prefix dt d m n r _ le_rfl s).2.2.1

@[simp] theorem elementLoop_rest (r : Nat) (s : State) :
    (elementLoop dt d m n r s).fpscr.rest = s.fpscr.rest :=
  (elementLoop_prefix dt d m n r _ le_rfl s).2.2.2.1

@[simp] theorem elementLoop_pc (r : Nat) (s : State) : (elementLoop dt d m n r s).pc = s.pc :=
  (elementLoop_prefix dt d m n r _ le_rfl s).2.2.2.2.1

@[simp] theorem elementLoop_env (r : Nat) (s : State) : (elementLoop dt d m n r s).env = s.env :=
  (elementLoop_prefix dt d m n r _ le_rfl s).2.2.2.2.2.1

@[simp] theorem elementLoop_params (r : Nat) (s : State) :
    (elementLoop dt d m n r s).params = s.params :=
  (elementLoop_prefix dt d m n r _ le_rfl s).2.2.2.2.2.2

/-- One register per operand: one pass. -/
theorem vectorLoop_one (s : State) : vectorLoop dt d m n 1 s = elementLoop dt d m n 0 s := rfl

/-- Two registers per operand: two passes. -/
theorem vectorLoop_two (s : State) :
    vectorLoop dt d m n 2 s = elementLoop dt d m n 1 (elementLoop dt d m n 0 s) := rfl

/-- The first register of an operand is the encoded one. -/
@[simp] theorem regAt_zero (i : Reg) : regAt i 0 = i := by simp [regAt]

end Sys2Proof.Machine
end

