-- ==== Sys2Proof/Laws/Exec.lean ====
section
/-! SUPPORT. Everything a meaning and a step can do (40_vqrshl.md R75, R76; 60_exceptions.md R100, R106). -/

namespace Sys2Proof.Machine

/-- `raise` answers a fault whatever the cause. -/
theorem raiseFault_ne_next (c : FaultCause) (s t : State) : raiseFault c s ≠ .next t := by
  cases c <;> simp [raiseFault]

/-- The condition test answers a next state in two ways. -/
theorem ifConditionPassed_next {iset : ISet} {s t : State}
    {body : Host.Outcome State Fault Refusal} (h : ifConditionPassed iset s body = .next t) :
    (s.conditionPassed iset = false ∧ t = s.advancePc) ∨
      (s.conditionPassed iset = true ∧ body = .next t) := by
  unfold ifConditionPassed at h
  split at h
  · next hc => exact .inr ⟨hc, h⟩
  · next hc => exact .inl ⟨by simpa using hc, by simpa using h.symm⟩

/-- The UNDEFINED test answers a next state only for even registers. -/
theorem ifEvenRegs_next {d m n : Reg} {s t : State} {body : Host.Outcome State Fault Refusal}
    (h : ifEvenRegs d m n s body = .next t) : evenRegs d m n = true ∧ body = .next t := by
  unfold ifEvenRegs at h
  split at h
  · next hc => exact ⟨hc, h⟩
  · exact absurd h (raiseFault_ne_next _ _ _)

/-- The enable check answers a next state only where Advanced SIMD is permitted. -/
theorem ifAdvSIMDEnabled_next {s t : State} {body : Host.Outcome State Fault Refusal}
    (h : ifAdvSIMDEnabled s body = .next t) : s.advSIMDAccess = .permitted ∧ body = .next t := by
  unfold ifAdvSIMDEnabled at h
  split at h
  · exact absurd h (raiseFault_ne_next _ _ _)
  · exact absurd h (raiseFault_ne_next _ _ _)
  · next hc => exact ⟨hc, h⟩

/-- Every instruction in the order of R75: the condition, the UNDEFINED test of a Q form, the enable check, the operation,
the pc. -/
theorem exec_eq (i : Instr) (s : State) :
    exec i s =
      if s.conditionPassed i.iset then
        if i.wellFormed then
          ifAdvSIMDEnabled s (.next (vectorLoop i.dt i.d i.m i.n i.regs s).advancePc)
        else raiseFault .uDecode s
      else .next s.advancePc := by
  cases i <;> rfl

/-- Everything an instruction can do when it answers a next state: a failed condition that only advances the pc, or the
operation with every check passed (R75, R76). -/
theorem exec_next {i : Instr} {s t : State} (h : exec i s = .next t) :
    (s.conditionPassed i.iset = false ∧ t = s.advancePc) ∨
      (s.conditionPassed i.iset = true ∧ i.wellFormed = true ∧ s.advSIMDAccess = .permitted ∧
        t = (vectorLoop i.dt i.d i.m i.n i.regs s).advancePc) := by
  cases i with
  | vqrshlA1D dt d m n =>
    obtain ⟨ha, hb⟩ := ifAdvSIMDEnabled_next h
    exact .inr ⟨rfl, rfl, ha, (Host.Outcome.next.inj hb).symm⟩
  | vqrshlA1Q dt d m n =>
    obtain ⟨he, h⟩ := ifEvenRegs_next h
    obtain ⟨ha, hb⟩ := ifAdvSIMDEnabled_next h
    exact .inr ⟨rfl, he, ha, (Host.Outcome.next.inj hb).symm⟩
  | vqrshlT1D dt d m n =>
    refine (ifConditionPassed_next h).imp id fun ⟨hc, h⟩ => ?_
    obtain ⟨ha, hb⟩ := ifAdvSIMDEnabled_next h
    exact ⟨hc, rfl, ha, (Host.Outcome.next.inj hb).symm⟩
  | vqrshlT1Q dt d m n =>
    refine (ifConditionPassed_next h).imp id fun ⟨hc, h⟩ => ?_
    obtain ⟨he, h⟩ := ifEvenRegs_next h
    obtain ⟨ha, hb⟩ := ifAdvSIMDEnabled_next h
    exact ⟨hc, he, ha, (Host.Outcome.next.inj hb).symm⟩

/-- Everything a step can do when it answers a next state (R44, R48, R59). -/
theorem step_next {s t : State} (h : step s = .next t) :
    s.pcAligned = true ∧ ∃ w i, s.fetchWord = some w ∧ decodeWord s.params.iset w = .ok i ∧
      exec i s = .next t := by
  unfold step at h
  split at h
  · next ha =>
    split at h
    · exact absurd h (by simp)
    · next w hw =>
      split at h
      · exact absurd h (by simp)
      · next i hi => exact ⟨ha, w, i, hw, hi, h⟩
  · exact absurd h (by simp)

/-- A run of one more step is a step and a run. -/
theorem run_next (M : Host.Core) {k : Nat} {s t : M.State} (h : M.run (k + 1) s = .next t) :
    ∃ s', M.step s = .next s' ∧ M.run k s' = .next t := by
  simp only [Host.Core.run] at h
  split at h
  · next s' hs => exact ⟨s', hs, h⟩
  · cases h
  · cases h

end Sys2Proof.Machine
end

