-- ==== Sys2Proof/Laws/PerInstr.lean ====
section
/-! SUPPORT. Families of statements about every instruction, one lemma per constructor. -/

namespace Sys2Proof.Laws

/-- The mask of the opcode-table row of an instruction (R52, R54). -/
def rowMask : Instr → Word
  | .vqrshlA1D _ _ _ _ => 0xFE800F50#32
  | .vqrshlA1Q _ _ _ _ => 0xFE800F50#32
  | .vqrshlT1D _ _ _ _ => 0xEF800F50#32
  | .vqrshlT1Q _ _ _ _ => 0xEF800F50#32

/-- The match value of the opcode-table row of an instruction (R52, R54). -/
def rowMatch : Instr → Word
  | .vqrshlA1D _ _ _ _ => 0xF2000510#32
  | .vqrshlA1Q _ _ _ _ => 0xF2000550#32
  | .vqrshlT1D _ _ _ _ => 0xEF000510#32
  | .vqrshlT1Q _ _ _ _ => 0xEF000550#32

/-- The encoded word has the constant bits of its row. -/
def EncodeMatchesRow.Statement (i : Instr) : Prop := encode i &&& rowMask i = rowMatch i

theorem EncodeMatchesRow.vqrshlA1D (dt : Dt) (d m n : Reg) :
    EncodeMatchesRow.Statement (.vqrshlA1D dt d m n) := by
  unfold EncodeMatchesRow.Statement
  apply BitVec.eq_of_getLsbD_eq
  intro k hk
  simp only [encode, encodeLow, rowMask, rowMatch, BitVec.getLsbD_and, BitVec.getLsbD_append,
    BitVec.getLsbD_extractLsb']
  generalize dt.uBit = u
  generalize dt.sizeBits = size
  interval_cases k <;> simp

theorem EncodeMatchesRow.vqrshlA1Q (dt : Dt) (d m n : Reg) :
    EncodeMatchesRow.Statement (.vqrshlA1Q dt d m n) := by
  unfold EncodeMatchesRow.Statement
  apply BitVec.eq_of_getLsbD_eq
  intro k hk
  simp only [encode, encodeLow, rowMask, rowMatch, BitVec.getLsbD_and, BitVec.getLsbD_append,
    BitVec.getLsbD_extractLsb']
  generalize dt.uBit = u
  generalize dt.sizeBits = size
  interval_cases k <;> simp

theorem EncodeMatchesRow.vqrshlT1D (dt : Dt) (d m n : Reg) :
    EncodeMatchesRow.Statement (.vqrshlT1D dt d m n) := by
  unfold EncodeMatchesRow.Statement
  apply BitVec.eq_of_getLsbD_eq
  intro k hk
  simp only [encode, encodeLow, rowMask, rowMatch, BitVec.getLsbD_and, BitVec.getLsbD_append,
    BitVec.getLsbD_extractLsb']
  generalize dt.uBit = u
  generalize dt.sizeBits = size
  interval_cases k <;> simp

theorem EncodeMatchesRow.vqrshlT1Q (dt : Dt) (d m n : Reg) :
    EncodeMatchesRow.Statement (.vqrshlT1Q dt d m n) := by
  unfold EncodeMatchesRow.Statement
  apply BitVec.eq_of_getLsbD_eq
  intro k hk
  simp only [encode, encodeLow, rowMask, rowMatch, BitVec.getLsbD_and, BitVec.getLsbD_append,
    BitVec.getLsbD_extractLsb']
  generalize dt.uBit = u
  generalize dt.sizeBits = size
  interval_cases k <;> simp

end Sys2Proof.Laws
end

