-- ==== Sys2Proof/Laws/Program.lean ====
section
/-! SUPPORT. The program text (20_memory.md R48): read after write, and every operation keeps the canonical form. -/

namespace Sys2Proof.Machine

/-- A loaded word is read back. -/
theorem ProgramText.wordAt_place_same (p : ProgramText) (a : Nat) (w : Word) :
    (p.place a w).wordAt a = some w := by
  induction p with
  | nil => simp [ProgramText.place, ProgramText.wordAt]
  | cons entry rest ih =>
    obtain ⟨b, v⟩ := entry
    simp only [ProgramText.place]
    split
    · simp [ProgramText.wordAt]
    · split
      · simp [ProgramText.wordAt]
      · next h => simp [ProgramText.wordAt, Ne.symm h, ih]

/-- Loading a word leaves every other address. -/
theorem ProgramText.wordAt_place_other (p : ProgramText) {a x : Nat} (w : Word) (h : x ≠ a) :
    (p.place a w).wordAt x = p.wordAt x := by
  induction p with
  | nil => simp [ProgramText.place, ProgramText.wordAt, Ne.symm h]
  | cons entry rest ih =>
    obtain ⟨b, v⟩ := entry
    simp only [ProgramText.place]
    split
    · simp [ProgramText.wordAt, Ne.symm h]
    · split
      · next hab => subst hab; simp [ProgramText.wordAt, Ne.symm h]
      · simp [ProgramText.wordAt, ih]

/-- Every address of a text with one more word is the new one or an old one. -/
theorem ProgramText.mem_place {p : ProgramText} {a : Nat} {w : Word} {entry : Nat × Word}
    (h : entry ∈ p.place a w) : entry.1 = a ∨ entry ∈ p := by
  induction p with
  | nil => simp [ProgramText.place] at h; simp [h]
  | cons head rest ih =>
    obtain ⟨b, v⟩ := head
    simp only [ProgramText.place] at h
    split at h
    · rcases List.mem_cons.mp h with rfl | h
      · exact .inl rfl
      · exact .inr h
    · split at h
      · rcases List.mem_cons.mp h with rfl | h
        · exact .inl rfl
        · exact .inr (List.mem_cons_of_mem _ h)
      · rcases List.mem_cons.mp h with rfl | h
        · exact .inr List.mem_cons_self
        · exact (ih h).imp id (List.mem_cons_of_mem _)

/-- The canonical form of a non-empty text. -/
theorem ProgramText.wf_cons (a : Nat) (w : Word) (rest : ProgramText) :
    ProgramText.wf ((a, w) :: rest) = true ↔
      a < 2 ^ 32 ∧ (∀ entry ∈ rest, a < entry.1) ∧ ProgramText.wf rest = true := by
  simp [ProgramText.wf, and_assoc]

/-- Loading a word keeps the canonical form. -/
theorem ProgramText.wf_place (p : ProgramText) {a : Nat} (w : Word) (ha : a < 2 ^ 32)
    (h : p.wf = true) : (p.place a w).wf = true := by
  induction p with
  | nil => simpa [ProgramText.place, ProgramText.wf] using ha
  | cons entry rest ih =>
    obtain ⟨b, v⟩ := entry
    have hb := (ProgramText.wf_cons b v rest).mp h
    simp only [ProgramText.place]
    split
    · next hab =>
      refine (ProgramText.wf_cons _ _ _).mpr ⟨ha, fun x hx => ?_, h⟩
      rcases List.mem_cons.mp hx with rfl | hx
      · exact hab
      · exact hab.trans (hb.2.1 x hx)
    · split
      · next hab => subst hab; exact (ProgramText.wf_cons _ _ _).mpr hb
      · refine (ProgramText.wf_cons _ _ _).mpr ⟨hb.1, fun x hx => ?_, ih hb.2.2⟩
        rcases ProgramText.mem_place hx with hx | hx
        · omega
        · exact hb.2.1 x hx

/-- Loading a program keeps the canonical form. -/
theorem ProgramText.wf_load (p : ProgramText) (base : Word) (ws : List Word) (h : p.wf = true) :
    (p.load base ws).wf = true := by
  induction ws generalizing p base with
  | nil => exact h
  | cons w rest ih => exact ih _ _ (ProgramText.wf_place p w base.isLt h)

/-- The start state's program text has the canonical form. -/
theorem ProgramText.wf_reset : State.reset.params.program.wf = true := rfl

end Sys2Proof.Machine
end

