-- ==== Sys2Proof/Tests/Slice0.lean ====
section
/-! SUPPORT. The model's own tests: the WellFormed smoke test, words written out from the spec's encodings, two steps per
instruction from 95_test_vectors.md sections 4 and 5, and a witness for the hypotheses of every statement. -/

namespace Sys2Proof.Tests

open Sys2Proof.Machine

/-- A small state: parameters, QC, pc, the registers that matter, and consecutive words from the pc. -/
def mk (iset : ISet) (access : AdvSIMDOutcome) (cond qc : Bool) (pc : Word) (ds : List (Reg × DWord))
    (ws : List Word) : State :=
  ds.foldl (fun s x => s.writeD x.1 x.2)
    { State.reset with
      pc := pc
      fpscr := ⟨qc, 0x155#31⟩
      params := ⟨iset, ⟨[], access⟩, ⟨[((pc, State.reset.env), cond)], true⟩, ProgramText.load [] pc ws⟩ }

/-- Whether an outcome is a next state with a property. -/
def next (o : Host.Outcome State Fault Refusal) (p : State → Bool) : Bool :=
  match o with
  | .next t => p t
  | _ => false

/-- Whether an outcome is one fault. -/
def faults (o : Host.Outcome State Fault Refusal) (f : Fault) : Bool :=
  match o with
  | .fault g => decide (g = f)
  | _ => false

/-- Whether an outcome is one refusal. -/
def refuses (o : Host.Outcome State Fault Refusal) (r : Refusal) : Bool :=
  match o with
  | .refused q => decide (q = r)
  | _ => false

/-! ## WellFormed: an ill-formed term for each check (R57) -/

theorem test_wellFormed_odd_d : (Instr.vqrshlA1Q .s8 17#5 4#5 2#5).wellFormed = false := by decide
theorem test_wellFormed_odd_m : (Instr.vqrshlA1Q .s8 0#5 1#5 0#5).wellFormed = false := by decide
theorem test_wellFormed_odd_n : (Instr.vqrshlT1Q .s8 0#5 0#5 1#5).wellFormed = false := by decide
theorem test_wellFormed_even : (Instr.vqrshlT1Q .u64 30#5 16#5 0#5).wellFormed = true := by decide
theorem test_wellFormed_odd_in_D_form : (Instr.vqrshlA1D .s8 1#5 0#5 0#5).wellFormed = true := by decide

/-! ## Decoding: words written out box by box (R51, R53) -/

/-- 1111001 0 0 0 00 0010 0000 0101 0 0 0 1 0001 -/
theorem test_decode_A1_D : decodeWord .a32 0b11110010000000100000010100010001#32 =
    .ok (.vqrshlA1D .s8 0#5 1#5 2#5) := by decide

/-- 1111001 1 0 1 01 1111 1111 0101 0 0 1 1 0000: the D and M bits and an odd destination (section 2.2). -/
theorem test_decode_A1_D_high : decodeWord .a32 0b11110011010111111111010100110000#32 =
    .ok (.vqrshlA1D .u16 31#5 16#5 15#5) := by decide

/-- 1111001 0 0 0 10 0110 0010 0101 0 1 0 1 0100 -/
theorem test_decode_A1_Q : decodeWord .a32 0b11110010001001100010010101010100#32 =
    .ok (.vqrshlA1Q .s32 2#5 4#5 6#5) := by decide

/-- 111 0 11110 0 01 0101 0101 0101 0 0 0 1 0101 -/
theorem test_decode_T1_D : decodeWord .t32 0b11101111000101010101010100010101#32 =
    .ok (.vqrshlT1D .s16 5#5 5#5 5#5) := by decide

/-- 111 1 11110 1 11 0000 1110 0101 0 1 1 1 0000 -/
theorem test_decode_T1_Q : decodeWord .t32 0b11111111011100001110010101110000#32 =
    .ok (.vqrshlT1Q .u64 30#5 16#5 0#5) := by decide

/-- The N bit (section 2.2, `VQRSHL.U64 Q15, Q15, Q15`). -/
theorem test_decode_N_bit : decodeWord .a32 0xF37EE5FE#32 = .ok (.vqrshlA1Q .u64 30#5 30#5 30#5) := by
  decide

/-- An A1 word in T32 state and a T1 word in A32 state are not VQRSHL (section 2.4). -/
theorem test_decode_wrong_iset :
    decodeWord .t32 0xF2020511#32 = .error (.notVqrshl 0xF2020511#32) ∧
    decodeWord .a32 0xEF020511#32 = .error (.notVqrshl 0xEF020511#32) := by decide

/-- Neighbours of a VQRSHL word (section 2.4): bit 4, bit 23, opc, the class bits. -/
theorem test_decode_neighbours_refused :
    ([0xF2020501#32, 0xF2820511#32, 0xF2020411#32, 0xF2020611#32, 0xE2020511#32, 0xF4020511#32].all
      fun w => !isA1 w) = true ∧
    ([0xEF020501#32, 0xEF820511#32, 0xE7020511#32, 0xCF020511#32, 0xEF020D11#32].all
      fun w => !isT1 w) = true := by decide

/-- The opcode table's match values decode in their own instruction set. -/
theorem test_decodeTableWord :
    decodeTableWord 32 0xF2000510 = some (.vqrshlA1D .s8 0#5 0#5 0#5) ∧
    decodeTableWord 32 0xF2000550 = some (.vqrshlA1Q .s8 0#5 0#5 0#5) ∧
    decodeTableWord 32 0xEF000510 = some (.vqrshlT1D .s8 0#5 0#5 0#5) ∧
    decodeTableWord 32 0xEF000550 = some (.vqrshlT1Q .s8 0#5 0#5 0#5) := by decide

/-! ## Two steps per instruction (95_test_vectors.md sections 4 and 5) -/

/-- V2. -/
def v2 : State := mk .a32 .permitted true false 0x8000#32
  [(16#5, 0x000100FF8000FFFF#64), (15#5, 0x000FABFC000100F0#64)] [0xF35FF530#32]

theorem test_A1_D_result : next (step v2) (fun t =>
    t.readD 31#5 == 0x80000010FFFF0001#64 && t.fpscr.qc && t.pc == 0x8004#32) = true := by decide

/-- F3. -/
theorem test_A1_D_hypTrap : faults (step (mk .a32 .hypTrap true false 0x8000#32 [] [0xF2020511#32]))
    (.hypTrap 0x8000#32) = true := by decide

/-- V3. -/
def v3 : State := mk .a32 .permitted true false 0x8000#32
  [(4#5, 0x8000000012345678#64), (5#5, 0xFFFFFFFF3FFFFFFF#64), (6#5, 0x000000E1000000FC#64),
    (7#5, 0xFFFFFFFF00000001#64)] [0xF2262554#32]

theorem test_A1_Q_result : next (step v3) (fun t =>
    t.readD 2#5 == 0xFFFFFFFF01234568#64 && t.readD 3#5 == 0x000000007FFFFFFE#64 &&
      !t.fpscr.qc) = true := by decide

/-- F8: U-decode comes before the enable check. -/
theorem test_A1_Q_odd_register :
    faults (step (mk .a32 .hypTrap true false 0x8000#32 [] [0xF2001550#32]))
      (.undefined .uDecode 0x8000#32) = true := by decide

/-- V5: all three registers the same. -/
def v5 : State := mk .t32 .permitted true false 0x8000#32 [(5#5, 0x80F87F0840FF0101#64)] [0xEF155515#32]

theorem test_T1_D_result : next (step v5) (fun t =>
    t.readD 5#5 == 0xFF817FFF20800202#64 && t.fpscr.qc) = true := by decide

/-- F5: the condition fails, so the enable check is not reached. -/
def f5 : State := mk .t32 .undefined false false 0x8000#32
  [(0#5, 0x1111111111111111#64), (1#5, 0x4040404040404040#64)] [0xEF020511#32]

theorem test_T1_D_condition_failed : next (step f5) (fun t =>
    t.readD 0#5 == 0x1111111111111111#64 && !t.fpscr.qc && t.pc == 0x8004#32) = true := by decide

/-- V4. -/
def v4 : State := mk .t32 .permitted true false 0x8000#32
  [(16#5, 0xFFFFFFFFFFFFFFFF#64), (17#5, 0x8000000000000000#64), (0#5, 0xFF#64), (1#5, 1#64)]
  [0xFF70E570#32]

theorem test_T1_Q_result : next (step v4) (fun t =>
    t.readD 30#5 == 0x8000000000000000#64 && t.readD 31#5 == 0xFFFFFFFFFFFFFFFF#64 &&
      t.fpscr.qc) = true := by decide

/-- F9: a failed condition hides an odd register. -/
def f9 : State := mk .t32 .permitted false false 0x8000#32 [] [0xEF001550#32]

theorem test_T1_Q_condition_failed : next (step f9) (fun t => t.pc == 0x8004#32) = true := by decide

/-! ## Witnesses: a concrete case that meets the hypotheses of each statement -/

/-- EncodeOfDecodeIsTheWord, DecodeVariablesFromTheFields, DataTypeIsEncodedInUSize: words that decode, one of them to an
ill-formed instruction. -/
theorem witness_decoded_words :
    decodeWord .t32 0xFF70E570#32 = .ok (.vqrshlT1Q .u64 30#5 16#5 0#5) ∧
    decodeWord .a32 0xF2421554#32 = .ok (.vqrshlA1Q .s8 17#5 4#5 2#5) ∧
    (Instr.vqrshlA1Q .s8 17#5 4#5 2#5).wellFormed = false := by decide

/-- AssembledLinesAreWellFormed: a line of each template, one with its destination left out, and a refused line. -/
theorem witness_assembled_lines :
    assemble .a32 ⟨.always, .absent, .s8, .dForm none 1#5 2#5⟩ = .ok (.vqrshlA1D .s8 1#5 1#5 2#5) ∧
    assemble .t32 ⟨.conditional, .wide, .u64, .qForm (some 15#4) 8#4 0#4⟩ =
      .ok (.vqrshlT1Q .u64 30#5 16#5 0#5) ∧
    assemble .a32 ⟨.conditional, .absent, .s8, .dForm none 1#5 2#5⟩ = .error .mustBeUnconditional := by
  decide

/-- BytesOfAnInstructionDecode: three bytes are too few. -/
theorem witness_truncated_bytes : decodeBytes .a32 [0#8, 0#8, 0#8] = .error .truncated := by decide

/-- ShiftCountIsTheSignedLowByte, second part: two count elements with one low byte. -/
theorem witness_equal_low_bytes : (0xFF04#16).toNat % 256 = (0x0004#16).toNat % 256 := by decide

/-- RightShiftRoundsToNearest, RightShiftByTheSizeOrMore: counts -1 and -128, and at the element size, one past it. -/
theorem witness_right_shift_counts :
    shiftCount 0xFF#8 = -1 ∧ shiftCount 0x80#8 = -128 ∧ shiftCount 0xF8#8 = -(esizeOf .u8 : Int) ∧
    shiftCount 0xF7#8 < -(esizeOf .u8 : Int) ∧ shiftCount 0xF8#8 ≤ -(esizeOf .s8 : Int) ∧
    2 ^ (esizeOf .u8 - 1) ≤ (0x80#8).toNat ∧ ¬ 2 ^ (esizeOf .u8 - 1) ≤ (0x7F#8).toNat := by decide

/-- SaturatesByTheFixedWidthTests: each branch at its boundary (vectors of section 3.1 and 3.2). -/
theorem witness_saturation_boundaries :
    (lane true 0x80#8 0x01#8).2 = true ∧ (lane true 0x7F#8 0x01#8).2 = false ∧
    (lane false 0x40#8 0x01#8).2 = true ∧ (lane false 0x3F#8 0x01#8).2 = false ∧
    (lane false 0xBF#8 0x01#8).2 = true ∧ (lane false 0xC0#8 0x01#8).2 = false ∧
    (lane false 0xFF#8 0x08#8).2 = true ∧ (lane false 0xFF#8 0x07#8).2 = false := by decide

/-- LaneIdentities: a zero count and a signed count of -1. -/
theorem witness_identity_counts : shiftCount 0xAB00#16 = 0 ∧ shiftCount 0x00FF#16 = -1 ∧
    unsignedOf .s16 = false := by decide

/-- DFormsCompleteWithTheVectorResult, A1AndT1HaveOneEffect: permitted, and the T1 condition passes. -/
theorem witness_D_form_completes :
    v2.advSIMDAccess = .permitted ∧ v5.advSIMDAccess = .permitted ∧ v5.conditionPassed .t32 = true := by
  decide

/-- QFormsCompleteWithTheVectorResult: permitted, even registers at both ends of their range, the T1 condition passes. -/
theorem witness_Q_form_completes :
    v4.advSIMDAccess = .permitted ∧ v4.conditionPassed .t32 = true ∧ (30#5).toNat % 2 = 0 ∧
      (16#5).toNat % 2 = 0 ∧ (0#5).toNat % 2 = 0 := by decide

/-- FailedConditionOnlyAdvancesThePc: the condition fails, with Advanced SIMD undefined. -/
theorem witness_condition_failed : f5.conditionPassed .t32 = false ∧ f5.advSIMDAccess = .undefined := by
  decide

/-- StepFaultsExactlyWhenTheRulesSay: fetched and decoded words that meet each of its three conditions. -/
theorem witness_step_faults :
    (let s := mk .a32 .permitted true false 0x8000#32 [] [0xF2001550#32];
      s.pcAligned = true ∧ s.fetchWord = some 0xF2001550#32 ∧
      decodeWord s.params.iset 0xF2001550#32 = .ok (.vqrshlA1Q .s8 1#5 0#5 0#5) ∧
      faults (step s) (.undefined .uDecode s.pc) = true) ∧
    (let s := mk .t32 .undefined true false 0x8002#32 [] [0xEF000550#32];
      s.pcAligned = true ∧ s.fetchWord = some 0xEF000550#32 ∧
      decodeWord s.params.iset 0xEF000550#32 = .ok (.vqrshlT1Q .s8 0#5 0#5 0#5) ∧
      faults (step s) (.undefined .uEnable s.pc) = true) ∧
    (let s := mk .t32 .hypTrap true false 0x8000#32 [] [0xEF000510#32];
      s.pcAligned = true ∧ s.fetchWord = some 0xEF000510#32 ∧
      decodeWord s.params.iset 0xEF000510#32 = .ok (.vqrshlT1D .s8 0#5 0#5 0#5) ∧
      faults (step s) (.hypTrap s.pc) = true) := by decide

/-- FaultsDoNotDependOnData: two states that differ in a register and in QC, and a fault of the first. -/
theorem witness_faults_without_data :
    (let s := mk .a32 .hypTrap true false 0#32 [] [];
      let s' := mk .a32 .hypTrap true true 0#32 [(1#5, 7#64)] [];
      s'.pc = s.pc ∧ s'.env = s.env ∧ s'.params = s.params ∧ s' ≠ s ∧
      faults (exec (.vqrshlA1D .s8 0#5 1#5 2#5) s) (.hypTrap 0#32) = true) := by decide

/-- QcIsSetExactlyWhenAnElementSaturates: completed instructions with and without a saturating element. -/
theorem witness_qc_rule :
    (∃ t, exec (.vqrshlA1D .u16 31#5 16#5 15#5) v2 = .next t) ∧
    (laneOut .u16 16#5 15#5 v2 0 1).2 = true ∧
    (∃ t, exec (.vqrshlA1Q .s32 2#5 4#5 6#5) v3 = .next t) ∧ anySat .s32 4#5 6#5 2 v3 = false := by
  refine ⟨⟨_, rfl⟩, by decide, ⟨_, rfl⟩, by decide⟩

/-- ZeroCountsCopyTheVector: a completed instruction whose count bytes are zero under non-zero upper bytes. -/
theorem witness_zero_counts :
    (∃ t, exec (.vqrshlA1D .u64 0#5 1#5 2#5)
      (mk .a32 .permitted true false 0#32 [(1#5, 5#64), (2#5, 0x123456789ABCDE00#64)] []) = .next t) ∧
    (countElem .u64 2#5 (mk .a32 .permitted true false 0#32
      [(1#5, 5#64), (2#5, 0x123456789ABCDE00#64)] []) 0 0).toNat % 256 = 0 ∧ elementsOf .u64 = 1 := by
  refine ⟨⟨_, rfl⟩, by decide, by decide⟩

/-- DestinationDependsOnTheSourcesAlone: two states that agree on the sources and differ in the destination. -/
theorem witness_same_sources :
    (let s := mk .a32 .permitted true false 0#32 [(0#5, 1#64), (1#5, 5#64)] [];
      let s' := mk .a32 .permitted true true 0#32 [(0#5, 9#64), (1#5, 5#64)] [];
      s'.readD 1#5 = s.readD 1#5 ∧ s'.readD 2#5 = s.readD 2#5 ∧ s'.readD 0#5 ≠ s.readD 0#5 ∧
      s'.pc = s.pc ∧ s'.env = s.env ∧ s'.params = s.params) ∧
    (∃ t, exec (.vqrshlA1D .s8 0#5 1#5 2#5)
      (mk .a32 .permitted true false 0#32 [(0#5, 1#64), (1#5, 5#64)] []) = .next t) := by
  refine ⟨by decide, ⟨_, rfl⟩⟩

/-- QFormChangesOneQRegister, QFormIsTwoDForms: completed Q forms, and another Q register. -/
theorem witness_Q_forms_complete :
    (∃ t, exec (.vqrshlA1Q .s32 2#5 4#5 6#5) v3 = .next t) ∧
    (∃ t, exec (.vqrshlT1Q .u64 30#5 16#5 0#5) v4 = .next t) ∧ qBase 0#4 ≠ 2#5 ∧ qBase 15#4 = 30#5 := by
  refine ⟨⟨_, rfl⟩, ⟨_, rfl⟩, by decide, by decide⟩

/-- SequentialLoopIsReadingFirst, ElementOrderIsNotObservable: both legal shapes, and an order other than the loops'. -/
theorem witness_legal_shapes :
    legalShape 1 5#5 5#5 5#5 ∧ legalShape 2 30#5 16#5 0#5 ∧
    (positions .s32 2).reverse.Perm (positions .s32 2) ∧ (positions .s32 2).reverse ≠ positions .s32 2 :=
  ⟨.inl rfl, .inr ⟨rfl, by decide⟩, List.reverse_perm _, by decide⟩

/-- StepRunsTheDecodedInstruction, CompletedStepChangesOnlyTheDestination, LaunchPremisesAreKept, LaunchedStepCompletes,
CompletedRunEndsPastItsWords: a launched state whose step runs a well-formed instruction and completes. -/
theorem witness_launched_step :
    v3.launched = true ∧ v3.pcAligned = true ∧ v3.params.program.wordAt v3.pc.toNat = some 0xF2262554#32 ∧
    decodeWord v3.params.iset 0xF2262554#32 = .ok (.vqrshlA1Q .s32 2#5 4#5 6#5) ∧
    (Instr.vqrshlA1Q .s32 2#5 4#5 6#5).wellFormed = true ∧ next (step v3) (fun _ => true) = true ∧
    next (Host.Core.run Sys2Proof.core 1 v3) (fun _ => true) = true := by decide

/-- StepRefusesExactlyWhen: each refusal, the alignments at their boundaries. -/
theorem witness_refusals :
    refuses (step (mk .a32 .permitted true false 0x8002#32 [] [0xF2020511#32])) (.misalignedPc 0x8002#32) =
      true ∧
    refuses (step (mk .t32 .permitted true false 0x8001#32 [] [0xEF020511#32])) (.misalignedPc 0x8001#32) =
      true ∧
    refuses (step (mk .t32 .permitted true false 0x8002#32 [] [])) (.noProgramWord 0x8002#32) = true ∧
    refuses (step (mk .a32 .permitted true false 0x8000#32 [] [0xEF020511#32]))
      (.notVqrshl 0xEF020511#32) = true ∧
    refuses (step (mk .t32 .permitted true false 0x8000#32 [] [0xF2020511#32]))
      (.notVqrshl 0xF2020511#32) = true := by decide

/-- LoadedWordIsRunNext: a word loaded over another instruction set at a misaligned pc, and run. -/
theorem witness_loaded_word :
    decodeWord .a32 0xF2320511#32 = .ok (.vqrshlA1D .s64 0#5 1#5 2#5) ∧
    next (step ((mk .t32 .permitted true false 0x8002#32 [] []).withFetchWord 32 0xF2320511))
      (fun t => t.pc == 0x8004#32) = true ∧
    next (step (State.reset.withFetchWord 32 0xEF320511)) (fun t => t.pc == 4#32) = true := by decide

/-- ParameterTablesLoseNoFunction: an address in a list of addresses. -/
theorem witness_listed_address : (0x3004#32) ∈ [0x3000#32, 0x3004#32] := by decide

end Sys2Proof.Tests
end

