-- ==== Sys2Proof/Proofs/DataTypeTable.lean ====
section
/-! PROOFS. The data type table of 30_encoding.md R58 (O6), from the encoder's words read back by the decoder's fields. -/

namespace Sys2Proof

/-! ## A word that ends in `encodeLow` -/

/-- Bits 23:0 are read back by the fields both formats share, whatever stands above them (R55, R56). -/
theorem fields_encodeLow (hi : BitVec 8) (dt : Dt) (d m n : Reg) (q : BitVec 1) :
    let w : Word := hi ++ encodeLow dt d m n q
    commonBoxes w = true ∧ fieldSize w = dt.sizeBits ∧ fieldQ w = q ∧
      fieldD w = d ∧ fieldM w = m ∧ fieldN w = n := by
  simp (disch := decide) only [commonBoxes, fieldSize, fieldQ, fieldD, fieldM, fieldN, encodeLow,
    BitVec.extractLsb'_append_eq_of_add_le, BitVec.extractLsb'_append_eq_of_le, Nat.reduceSub,
    BitVec.extractLsb'_eq_self]
  have split_reg (r : Reg) : r.extractLsb' 4 1 ++ r.extractLsb' 0 4 = r :=
    BitVec.extractLsb'_append_extractLsb'
  exact ⟨by decide, trivial, trivial, split_reg d, split_reg m, split_reg n⟩

/-- Bits 31:24 of such a word. -/
theorem extractLsb'_above_encodeLow (hi : BitVec 8) (dt : Dt) (d m n : Reg) (q : BitVec 1)
    {start : Nat} (len : Nat) (h : 24 ≤ start) :
    (hi ++ encodeLow dt d m n q : Word).extractLsb' start len = hi.extractLsb' (start - 24) len :=
  BitVec.extractLsb'_append_eq_of_le h

/-! ## The decoder on the encoder's words -/

/-- A word with the boxes of A1 (R51) decodes in A32 to the form that Q chooses. -/
theorem decodeWord_a1Boxes (dt : Dt) (d m n : Reg) (q : BitVec 1) :
    decodeWord .a32 (0b1111001#7 ++ dt.uBit ++ encodeLow dt d m n q) =
      .ok (if q = 0#1 then .vqrshlA1D dt d m n else .vqrshlA1Q dt d m n) := by
  obtain ⟨hcommon, hsize, hq, hd, hm, hn⟩ := fields_encodeLow (0b1111001#7 ++ dt.uBit) dt d m n q
  have hA1 : isA1 (0b1111001#7 ++ dt.uBit ++ encodeLow dt d m n q) = true := by
    rw [isA1, hcommon, extractLsb'_above_encodeLow _ _ _ _ _ _ _ (by decide)]
    cases dt <;> decide
  have hU : fieldU .a32 (0b1111001#7 ++ dt.uBit ++ encodeLow dt d m n q) = dt.uBit := by
    rw [fieldU, extractLsb'_above_encodeLow _ _ _ _ _ _ _ (by decide)]
    cases dt <;> decide
  simp only [decodeWord, hA1, hU, hsize, hq, hd, hm, hn, dtOf_bits, if_true]
  split <;> rfl

/-- A word with the boxes of T1 (R53) decodes in T32 to the form that Q chooses. -/
theorem decodeWord_t1Boxes (dt : Dt) (d m n : Reg) (q : BitVec 1) :
    decodeWord .t32 (0b111#3 ++ dt.uBit ++ 0b1111#4 ++ encodeLow dt d m n q) =
      .ok (if q = 0#1 then .vqrshlT1D dt d m n else .vqrshlT1Q dt d m n) := by
  obtain ⟨hcommon, hsize, hq, hd, hm, hn⟩ :=
    fields_encodeLow (0b111#3 ++ dt.uBit ++ 0b1111#4) dt d m n q
  have hT1 : isT1 (0b111#3 ++ dt.uBit ++ 0b1111#4 ++ encodeLow dt d m n q) = true := by
    rw [isT1, hcommon, extractLsb'_above_encodeLow _ _ _ _ _ _ _ (by decide),
      extractLsb'_above_encodeLow _ _ _ _ _ _ _ (by decide)]
    cases dt <;> decide
  have hU : fieldU .t32 (0b111#3 ++ dt.uBit ++ 0b1111#4 ++ encodeLow dt d m n q) = dt.uBit := by
    rw [fieldU, extractLsb'_above_encodeLow _ _ _ _ _ _ _ (by decide)]
    cases dt <;> decide
  simp only [decodeWord, hT1, hU, hsize, hq, hd, hm, hn, dtOf_bits, if_true]
  split <;> rfl

/-- The decoder reads back every instruction from its word. -/
theorem decodeWord_encode (i : Instr) : decodeWord i.iset (encode i) = .ok i := by
  cases i with
  | vqrshlA1D dt d m n => exact decodeWord_a1Boxes dt d m n 0#1
  | vqrshlA1Q dt d m n => exact decodeWord_a1Boxes dt d m n 1#1
  | vqrshlT1D dt d m n => exact decodeWord_t1Boxes dt d m n 0#1
  | vqrshlT1Q dt d m n => exact decodeWord_t1Boxes dt d m n 1#1

/-! ## The data type table -/

/-- There is an instruction of each instruction set, data type, vector size and choice of registers (R59, R61). -/
theorem exists_instr_of_fields (iset : ISet) (dt : Dt) (q : Bool) (d m n : Reg) :
    ∃ i : Instr, i.iset = iset ∧ i.dt = dt ∧ i.regs = (if q then 2 else 1) ∧
      i.d = d ∧ i.m = m ∧ i.n = n := by
  cases iset with
  | a32 =>
    cases q with
    | false => exact ⟨.vqrshlA1D dt d m n, rfl, rfl, rfl, rfl, rfl, rfl⟩
    | true => exact ⟨.vqrshlA1Q dt d m n, rfl, rfl, rfl, rfl, rfl, rfl⟩
  | t32 =>
    cases q with
    | false => exact ⟨.vqrshlT1D dt d m n, rfl, rfl, rfl, rfl, rfl, rfl⟩
    | true => exact ⟨.vqrshlT1Q dt d m n, rfl, rfl, rfl, rfl, rfl, rfl⟩

/-- Settles O6: a word's data type is what `decodeWord_ok` says of it, the rows evaluate, and every choice of fields is
that of an instruction, whose own word decodes to it. -/
theorem dataTypeIsEncodedInUSize : Obligations.DataTypeIsEncodedInUSize := by
  refine ⟨?fromFields, ⟨rfl, rfl, rfl⟩, ⟨rfl, rfl, rfl⟩, ⟨rfl, rfl, rfl⟩, ⟨rfl, rfl, rfl⟩,
    ⟨rfl, rfl, rfl⟩, ⟨rfl, rfl, rfl⟩, ⟨rfl, rfl, rfl⟩, ⟨rfl, rfl, rfl⟩, ?everyField⟩
  case fromFields =>
    intro iset w i h
    obtain ⟨-, -, hdt, -⟩ := decodeWord_ok h
    cases iset <;> exact hdt
  case everyField =>
    intro iset u size q d m n
    obtain ⟨i, hiset, hfields⟩ := exists_instr_of_fields iset (dtOf u size) q d m n
    exact ⟨encode i, i, hiset ▸ decodeWord_encode i, hfields⟩

end Sys2Proof
end

section
/-! PROOFS. The shift count of one element (40_vqrshl.md R73; O11). -/

namespace Sys2Proof.Machine

/-- The shift count in terms of the low byte's number: two's complement over 8 bits (R73). -/
theorem shiftCount_eq_lowByte {size : Nat} (c : BitVec size) :
    shiftCount c =
      if c.toNat % 256 < 128 then ((c.toNat % 256 : Nat) : Int)
      else ((c.toNat % 256 : Nat) : Int) - 256 := by
  have hbyte : (c.extractLsb' 0 8).toNat = c.toNat % 256 := by
    simp [BitVec.extractLsb'_toNat]
  rw [shiftCount, BitVec.toInt_eq_toNat_cond, hbyte]
  split <;> split <;> omega

/-- The bits above the low byte of a count element are ignored (R73). -/
theorem shiftCount_congr {size : Nat} {c c' : BitVec size} (h : c.toNat % 256 = c'.toNat % 256) :
    shiftCount c = shiftCount c' := by
  rw [shiftCount_eq_lowByte, shiftCount_eq_lowByte, h]

/-- The result element depends on the count element through the shift count alone (R77). -/
theorem lane_congr_count (unsigned : Bool) {size : Nat} (op : BitVec size) {c c' : BitVec size}
    (h : shiftCount c = shiftCount c') : lane unsigned op c = lane unsigned op c' := by
  simp only [lane, h]

/-- Settles O11: the count is the low byte's signed value, so its range is that of 8 bits and elements with the same low
byte agree. -/
theorem shiftCountIsTheSignedLowByte : Obligations.ShiftCountIsTheSignedLowByte := by
  refine ⟨fun dt n s r e => ⟨rfl, ?value, shiftCount_range _⟩, fun dt op c c' unsigned hlow => ?equal⟩
  case value =>
    rw [shiftCount_eq_lowByte]
    norm_cast
  case equal =>
    have hcount := shiftCount_congr hlow
    exact ⟨hcount, lane_congr_count unsigned op hcount⟩

end Sys2Proof.Machine
end

section
/-! PROOFS. What the loops of VQRSHL do to FPSCR (40_vqrshl.md R75, R82, R87; O22). -/

namespace Sys2Proof.Machine

/-! ## Operands of a legal shape -/

/-- Even registers are those whose low bit is 0 (R57). -/
theorem evenRegs_iff (d m n : Reg) :
    evenRegs d m n = true ↔
      d.getLsbD 0 = false ∧ m.getLsbD 0 = false ∧ n.getLsbD 0 = false := by
  simp [evenRegs, and_assoc]

/-- The registers of a Q operand alternate in parity (R22, R25). -/
theorem getLsbD_zero_regAt_one (i : Reg) : (regAt i 1).getLsbD 0 = !i.getLsbD 0 := by
  rw [regAt, BitVec.getLsbD_add (by decide)]
  simp

/-- The second register of one Q operand is not the first register of another: the one is odd, the other even (R22). -/
theorem regAt_one_ne_of_even {i j : Reg} (hi : i.getLsbD 0 = false) (hj : j.getLsbD 0 = false) :
    regAt i 1 ≠ regAt j 0 := by
  intro h
  have hbit : (regAt i 1).getLsbD 0 = (regAt j 0).getLsbD 0 := by rw [h]
  rw [getLsbD_zero_regAt_one, regAt_zero, hi, hj] at hbit
  exact absurd hbit (by decide)

/-- A well-formed instruction has a legal operand shape (R57). -/
theorem legalShape_of_wellFormed {i : Instr} (h : i.wellFormed = true) :
    legalShape i.regs i.d i.m i.n := by
  cases i with
  | vqrshlA1D => exact .inl rfl
  | vqrshlA1Q => exact .inr ⟨rfl, h⟩
  | vqrshlT1D => exact .inl rfl
  | vqrshlT1Q => exact .inr ⟨rfl, h⟩

/-! ## The loops -/

/-- The second pass of a Q form reads its operands as the first pass found them (R87): the first pass writes `D[d]` alone,
which is no second register of a source. -/
theorem laneOut_one_elementLoop_zero (dt : Dt) {d m n : Reg} (h : evenRegs d m n = true) (s : State)
    (e : Nat) : laneOut dt m n (elementLoop dt d m n 0 s) 1 e = laneOut dt m n s 1 e := by
  obtain ⟨hd, hm, hn⟩ := (evenRegs_iff d m n).mp h
  apply laneOut_congr
  · rw [elementLoop_other dt d m n 0 s (regAt_one_ne_of_even hm hd)]
  · rw [elementLoop_other dt d m n 0 s (regAt_one_ne_of_even hn hd)]

/-- QC after the loops (R82): set if an element saturates, its operands read in the state before the loops, and kept. -/
theorem vectorLoop_qc (dt : Dt) {d m n : Reg} {regs : Nat} (h : legalShape regs d m n) (s : State) :
    (vectorLoop dt d m n regs s).fpscr.qc = true ↔
      s.fpscr.qc = true ∨ ∃ r < regs, ∃ e < elementsOf dt, (laneOut dt m n s r e).2 = true := by
  obtain rfl | ⟨rfl, heven⟩ := h
  · simp [vectorLoop_one, elementLoop_qc]
  · have two (P : Nat → Prop) : (∃ r < 2, P r) ↔ P 0 ∨ P 1 := by
      simp only [Nat.exists_lt_succ_right, Nat.not_lt_zero, false_and, exists_false, false_or]
    simp only [vectorLoop_two, elementLoop_qc, laneOut_one_elementLoop_zero dt heven, two, or_assoc]

/-- One register per operand more is one pass more. -/
theorem vectorLoop_succ (dt : Dt) (d m n : Reg) (k : Nat) (s : State) :
    vectorLoop dt d m n (k + 1) s = elementLoop dt d m n k (vectorLoop dt d m n k s) := by
  simp [vectorLoop, List.range_succ]

/-- The loops write no bit of FPSCR but QC (R27). -/
theorem vectorLoop_rest (dt : Dt) (d m n : Reg) (regs : Nat) (s : State) :
    (vectorLoop dt d m n regs s).fpscr.rest = s.fpscr.rest := by
  induction regs with
  | zero => rfl
  | succ k ih => rw [vectorLoop_succ, elementLoop_rest, ih]

/-- The loops leave `env`, the flags of the condition in it (R33). -/
theorem vectorLoop_env (dt : Dt) (d m n : Reg) (regs : Nat) (s : State) :
    (vectorLoop dt d m n regs s).env = s.env := by
  induction regs with
  | zero => rfl
  | succ k ih => rw [vectorLoop_succ, elementLoop_env, ih]

/-! ## FPSCR -/

/-- An FPSCR that a sticky rule for QC and an unchanged rest determine (R27, R82). -/
theorem FPSCR.eq_of_qc_sticky {f g : FPSCR} {sat : Prop} (hqc : g.qc = true ↔ f.qc = true ∨ sat)
    (hrest : g.rest = f.rest) : (sat → g = { f with qc := true }) ∧ (¬sat → g = f) := by
  obtain ⟨fqc, frest⟩ := f
  obtain ⟨gqc, grest⟩ := g
  obtain rfl : grest = frest := hrest
  refine ⟨fun hsat => ?set, fun hnone => ?kept⟩
  case set =>
    have hset : gqc = true := hqc.mpr (.inr hsat)
    rw [hset]
  case kept =>
    have hkept : gqc = fqc := Bool.eq_iff_iff.mpr (hqc.trans (or_iff_left hnone))
    rw [hkept]

/-- Settles O22: a failed condition leaves FPSCR, and otherwise the loops change QC alone, by `vectorLoop_qc`. -/
theorem qcIsSetExactlyWhenAnElementSaturates :
    Obligations.QcIsSetExactlyWhenAnElementSaturates := by
  intro i s t hexec
  obtain ⟨hfailed, rfl⟩ | ⟨hpassed, hwf, -, rfl⟩ := exec_next hexec
  · simp [hfailed]
  · have hqc := vectorLoop_qc i.dt (legalShape_of_wellFormed hwf) s
    have hrest := vectorLoop_rest i.dt i.d i.m i.n i.regs s
    simpa [hpassed, vectorLoop_env] using FPSCR.eq_of_qc_sticky hqc hrest

end Sys2Proof.Machine
end

section
/-! PROOFS. The fault of a step (60_exceptions.md R100 to R106; O20). -/

namespace Sys2Proof

/-! ## The UNDEFINED test in the bits of the word -/

/-- Q is bit 6. -/
theorem fieldQ_eq_zero_iff (w : Word) : fieldQ w = 0#1 ↔ w.getLsbD 6 = false := by
  rw [fieldQ, BitVec.eq_of_getLsbD_eq_iff]
  simp

/-- The parity of a register number is the lowest bit of its four-bit field (R56). -/
theorem getLsbD_zero_regField (w : Word) (hi lo : Nat) :
    (w.extractLsb' hi 1 ++ w.extractLsb' lo 4 : Reg).getLsbD 0 = w.getLsbD lo := by
  rw [BitVec.getLsbD_append, BitVec.getLsbD_extractLsb']
  simp

/-- The words whose instruction is UNDEFINED: Q is 1 and one of the three register fields is odd (R57). -/
theorem not_wellFormed_iff_oddQ {iset : ISet} {w : Word} {i : Instr}
    (h : decodeWord iset w = .ok i) :
    i.wellFormed = false ↔
      w.getLsbD 6 = true ∧ (w.getLsbD 12 = true ∨ w.getLsbD 0 = true ∨ w.getLsbD 16 = true) := by
  obtain ⟨-, -, -, -, -, -, -, hwf⟩ := decodeWord_ok h
  have hd : (fieldD w).getLsbD 0 = w.getLsbD 12 := getLsbD_zero_regField w 22 12
  have hm : (fieldM w).getLsbD 0 = w.getLsbD 0 := getLsbD_zero_regField w 5 0
  have hn : (fieldN w).getLsbD 0 = w.getLsbD 16 := getLsbD_zero_regField w 7 16
  rw [← Bool.not_eq_true, hwf, Bool.or_eq_true, beq_iff_eq, Machine.evenRegs_iff,
    fieldQ_eq_zero_iff, hd, hm, hn]
  simp [imp_iff_not_or]

end Sys2Proof

namespace Sys2Proof.Machine

/-! ## Faults of the enable check, of an instruction, of a step -/

/-- The enable check in front of an operation that completes faults for its two reasons alone (R102, R103). -/
theorem ifAdvSIMDEnabled_fault_iff {s t : State} {f : Fault} :
    ifAdvSIMDEnabled s (.next t) = .fault f ↔
      (s.advSIMDAccess = .undefined ∧ f = .undefined .uEnable s.pc) ∨
        (s.advSIMDAccess = .hypTrap ∧ f = .hypTrap s.pc) := by
  unfold ifAdvSIMDEnabled
  cases s.advSIMDAccess <;> simp [raiseFault, eq_comm]

/-- Every fault of an instruction, in the order of R106: only where the condition passes; the UNDEFINED test hides the enable
check (D10, D11; log 10). -/
theorem exec_fault_iff {i : Instr} {s : State} {f : Fault} :
    exec i s = .fault f ↔
      s.conditionPassed i.iset = true ∧
        ((i.wellFormed = false ∧ f = .undefined .uDecode s.pc) ∨
          (i.wellFormed = true ∧
            ((s.advSIMDAccess = .undefined ∧ f = .undefined .uEnable s.pc) ∨
              (s.advSIMDAccess = .hypTrap ∧ f = .hypTrap s.pc)))) := by
  rw [exec_eq]
  cases s.conditionPassed i.iset with
  | false => simp
  | true =>
    cases i.wellFormed with
    | false => simp [raiseFault, eq_comm]
    | true => simp [ifAdvSIMDEnabled_fault_iff]

/-- A step at an aligned pc with a VQRSHL word is its instruction (R75). -/
theorem step_eq_exec {s : State} {w : Word} {i : Instr} (ha : s.pcAligned = true)
    (hw : s.fetchWord = some w) (hi : decodeWord s.params.iset w = .ok i) : step s = exec i s := by
  simp only [step, ha, hw, hi, if_true]

/-- Settles O20: the step is its instruction, whose faults `exec_fault_iff` lists; the UNDEFINED test is
`not_wellFormed_iff_oddQ`. -/
theorem stepFaultsExactlyWhenTheRulesSay : Obligations.StepFaultsExactlyWhenTheRulesSay := by
  intro s w i ha hw hi passed oddQ
  obtain ⟨-, hiset, -⟩ := decodeWord_ok hi
  have hodd : i.wellFormed = false ↔ oddQ := not_wellFormed_iff_oddQ hi
  have heven : i.wellFormed = true ↔ ¬oddQ := by rw [← hodd, Bool.not_eq_false]
  have hfault (f : Fault) : step s = .fault f ↔
      passed ∧ ((oddQ ∧ f = .undefined .uDecode s.pc) ∨
        (¬oddQ ∧ ((s.advSIMDAccess = .undefined ∧ f = .undefined .uEnable s.pc) ∨
          (s.advSIMDAccess = .hypTrap ∧ f = .hypTrap s.pc)))) := by
    rw [step_eq_exec ha hw hi, exec_fault_iff, hiset, hodd, heven]
  refine ⟨?uDecode, ?uEnable, ?hEnable, fun f hf => ?noOther⟩
  case uDecode => rw [hfault]; simp
  case uEnable => rw [hfault]; simp
  case hEnable => rw [hfault]; simp
  case noOther =>
    obtain ⟨-, ⟨-, hf⟩ | ⟨-, ⟨-, hf⟩ | ⟨-, hf⟩⟩⟩ := (hfault f).mp hf
    · exact .inl hf
    · exact .inr (.inl hf)
    · exact .inr (.inr hf)

end Sys2Proof.Machine
end

section
/-! PROOFS. The encoder and the decoder are inverse (30_encoding.md R51 to R55, R59; O1 to O4), the decode variables (R56, R57;
O5), and the words as formulas (R55, R66; O7, O8). -/

namespace Sys2Proof

open Machine

/-- Settles O1: the decoder evaluates on the four words. -/
theorem exampleWordsDecode : Obligations.ExampleWordsDecode :=
  ⟨by decide, by decide, by decide, by decide⟩

/-- Settles O2: the decoder's fields read back what the encoder's boxes hold. -/
theorem decodeOfEncodeIsTheInstruction : Obligations.DecodeOfEncodeIsTheInstruction :=
  decodeWord_encode

/-! ## The encoder on the decoder's fields -/

/-- Bits 23:0 of a word with the constant boxes are those the encoder makes of its fields: the boxes leave no bit out (R51,
R53). -/
theorem encodeLow_fields {w : Word} (u : BitVec 1) (h : commonBoxes w = true) :
    encodeLow (dtOf u (fieldSize w)) (fieldD w) (fieldM w) (fieldN w) (fieldQ w) =
      w.extractLsb' 0 24 := by
  simp only [commonBoxes, Bool.and_eq_true, beq_iff_eq] at h
  obtain ⟨⟨hbit23, hopc⟩, hbit4⟩ := h
  rw [encodeLow, ← hbit23, ← hopc, ← hbit4, sizeBits_dtOf]
  simp only [fieldSize, fieldQ, fieldD, fieldM, fieldN, BitVec.extractLsb'_append_eq_left,
    BitVec.extractLsb'_append_eq_right]
  simp (disch := decide) only [BitVec.extractLsb'_append_extractLsb'_eq_extractLsb']

/-- The boxes of A1 (R51) around the fields of an A1 word are the word. -/
theorem a1Boxes_fields {w : Word} (h : isA1 w = true) :
    0b1111001#7 ++ (dtOf (fieldU .a32 w) (fieldSize w)).uBit ++
      encodeLow (dtOf (fieldU .a32 w) (fieldSize w)) (fieldD w) (fieldM w) (fieldN w) (fieldQ w) =
        w := by
  simp only [isA1, Bool.and_eq_true, beq_iff_eq] at h
  obtain ⟨hclass, hcommon⟩ := h
  rw [encodeLow_fields _ hcommon, uBit_dtOf, ← hclass, fieldU]
  simp (disch := decide) only [BitVec.extractLsb'_append_extractLsb'_eq_extractLsb']
  exact BitVec.extractLsb'_eq_self

/-- The boxes of T1 (R53) around the fields of a T1 word are the word. -/
theorem t1Boxes_fields {w : Word} (h : isT1 w = true) :
    0b111#3 ++ (dtOf (fieldU .t32 w) (fieldSize w)).uBit ++ 0b1111#4 ++
      encodeLow (dtOf (fieldU .t32 w) (fieldSize w)) (fieldD w) (fieldM w) (fieldN w) (fieldQ w) =
        w := by
  simp only [isT1, Bool.and_eq_true, beq_iff_eq] at h
  obtain ⟨⟨hclass, hlow⟩, hcommon⟩ := h
  rw [encodeLow_fields _ hcommon, uBit_dtOf, ← hclass, ← hlow, fieldU]
  simp (disch := decide) only [BitVec.extractLsb'_append_extractLsb'_eq_extractLsb']
  exact BitVec.extractLsb'_eq_self

/-- An A1 word decodes in A32, to the form that Q chooses (R56, R59). -/
theorem decodeWord_of_isA1 {w : Word} (h : isA1 w = true) :
    decodeWord .a32 w =
      .ok (if fieldQ w = 0#1 then
          .vqrshlA1D (dtOf (fieldU .a32 w) (fieldSize w)) (fieldD w) (fieldM w) (fieldN w)
        else .vqrshlA1Q (dtOf (fieldU .a32 w) (fieldSize w)) (fieldD w) (fieldM w) (fieldN w)) := by
  simp only [decodeWord, h, if_true]
  split <;> rfl

/-- A T1 word decodes in T32, to the form that Q chooses (R56, R59). -/
theorem decodeWord_of_isT1 {w : Word} (h : isT1 w = true) :
    decodeWord .t32 w =
      .ok (if fieldQ w = 0#1 then
          .vqrshlT1D (dtOf (fieldU .t32 w) (fieldSize w)) (fieldD w) (fieldM w) (fieldN w)
        else .vqrshlT1Q (dtOf (fieldU .t32 w) (fieldSize w)) (fieldD w) (fieldM w) (fieldN w)) := by
  simp only [decodeWord, h, if_true]
  split <;> rfl

/-- The two A1 encodings differ in the Q box alone (R51). -/
theorem encode_a1_by_q (dt : Dt) (d m n : Reg) (q : BitVec 1) :
    encode (if q = 0#1 then .vqrshlA1D dt d m n else .vqrshlA1Q dt d m n) =
      0b1111001#7 ++ dt.uBit ++ encodeLow dt d m n q := by
  obtain rfl | rfl := BitVec.eq_zero_or_eq_one q <;> rfl

/-- The two T1 encodings differ in the Q box alone (R53). -/
theorem encode_t1_by_q (dt : Dt) (d m n : Reg) (q : BitVec 1) :
    encode (if q = 0#1 then .vqrshlT1D dt d m n else .vqrshlT1Q dt d m n) =
      0b111#3 ++ dt.uBit ++ 0b1111#4 ++ encodeLow dt d m n q := by
  obtain rfl | rfl := BitVec.eq_zero_or_eq_one q <;> rfl

/-- The encoder gives back every word that decodes. -/
theorem encode_of_decodeWord {iset : ISet} {w : Word} {i : Instr} (h : decodeWord iset w = .ok i) :
    encode i = w := by
  obtain ⟨hclass, -⟩ := decodeWord_ok h
  cases iset with
  | a32 =>
    rw [decodeWord_of_isA1 hclass] at h
    obtain rfl := Except.ok.inj h
    exact (encode_a1_by_q ..).trans (a1Boxes_fields hclass)
  | t32 =>
    rw [decodeWord_of_isT1 hclass] at h
    obtain rfl := Except.ok.inj h
    exact (encode_t1_by_q ..).trans (t1Boxes_fields hclass)

/-- Settles O3: the boxes and the fields together hold every bit of the word. -/
theorem encodeOfDecodeIsTheWord : Obligations.EncodeOfDecodeIsTheWord :=
  fun _ _ _ h => ⟨(decodeWord_ok h).2.1, encode_of_decodeWord h⟩

/-! ## The masks of the opcode table -/

/-- Every encoded word has the constant bits of its row (R52, R54). -/
theorem encode_and_rowMask (i : Instr) : encode i &&& Laws.rowMask i = Laws.rowMatch i := by
  cases i with
  | vqrshlA1D dt d m n => exact Laws.EncodeMatchesRow.vqrshlA1D dt d m n
  | vqrshlA1Q dt d m n => exact Laws.EncodeMatchesRow.vqrshlA1Q dt d m n
  | vqrshlT1D dt d m n => exact Laws.EncodeMatchesRow.vqrshlT1D dt d m n
  | vqrshlT1Q dt d m n => exact Laws.EncodeMatchesRow.vqrshlT1Q dt d m n

/-- A box whose bits a mask holds is read from the match value. -/
theorem extractLsb'_eq_of_and_eq {w mask val : Word} (h : w &&& mask = val) (start len : Nat)
    (hbox : mask.extractLsb' start len = BitVec.allOnes len) :
    w.extractLsb' start len = val.extractLsb' start len := by
  rw [← h, BitVec.extractLsb'_and, hbox, BitVec.and_allOnes]

/-- The mask of a class (R52, R54), without the Q bit. -/
def classMask : ISet → Word
  | .a32 => 0xFE800F10#32
  | .t32 => 0xEF800F10#32

/-- The match value of a class (R52, R54), without the Q bit. -/
def classMatch : ISet → Word
  | .a32 => 0xF2000510#32
  | .t32 => 0xEF000510#32

/-- A word with the constant bits of a class has its constant boxes. -/
theorem isClass_of_classMask {iset : ISet} {w : Word} (h : w &&& classMask iset = classMatch iset) :
    isClass iset w = true := by
  have box := extractLsb'_eq_of_and_eq h
  cases iset with
  | a32 =>
    simp only [isClass, isA1, commonBoxes, box 25 7 rfl, box 23 1 rfl, box 8 4 rfl, box 4 1 rfl]
    decide
  | t32 =>
    simp only [isClass, isT1, commonBoxes, box 29 3 rfl, box 24 4 rfl, box 23 1 rfl, box 8 4 rfl,
      box 4 1 rfl]
    decide

/-- The row of an instruction is its class and the value of Q (R52, R54). -/
theorem rowMask_and_classMask (i : Instr) :
    Laws.rowMask i &&& classMask i.iset = classMask i.iset ∧
      Laws.rowMatch i &&& classMask i.iset = classMatch i.iset := by
  cases i <;> simp only [Laws.rowMask, Laws.rowMatch, classMask, classMatch, Instr.iset] <;> decide

/-- The mask of a row holds the Q bit, the number of registers less one (R52, R54, R56). -/
theorem rowMask_q (i : Instr) :
    (Laws.rowMask i).extractLsb' 6 1 = BitVec.allOnes 1 ∧
      (Laws.rowMatch i).extractLsb' 6 1 = BitVec.ofNat 1 (i.regs - 1) := by
  cases i <;> simp only [Laws.rowMask, Laws.rowMatch, Instr.regs] <;> decide

/-- The words of a class, by mask (R52, R54). -/
theorem decodeWord_ok_iff_classMask (iset : ISet) (w : Word) :
    (∃ i, decodeWord iset w = .ok i) ↔ w &&& classMask iset = classMatch iset := by
  refine ⟨fun ⟨i, h⟩ => ?_, fun h => decodeWord_of_isClass (isClass_of_classMask h)⟩
  obtain ⟨-, rfl, -⟩ := decodeWord_ok h
  obtain ⟨hmask, hmatch⟩ := rowMask_and_classMask i
  rw [← encode_of_decodeWord h, ← hmask, ← BitVec.and_assoc, encode_and_rowMask, hmatch]

/-- A decoded word has the constant bits of its instruction's row (R52, R54). -/
theorem and_rowMask_of_decodeWord {iset : ISet} {w : Word} {i : Instr}
    (h : decodeWord iset w = .ok i) : w &&& Laws.rowMask i = Laws.rowMatch i := by
  rw [← encode_of_decodeWord h, encode_and_rowMask]

/-- A word with the constant bits of a row has those of its class, and Q is the row's (R52, R54). -/
theorem class_and_q_of_rowMask {i : Instr} {w : Word} (h : w &&& Laws.rowMask i = Laws.rowMatch i) :
    isClass i.iset w = true ∧ fieldQ w = BitVec.ofNat 1 (i.regs - 1) := by
  constructor
  · obtain ⟨hmask, hmatch⟩ := rowMask_and_classMask i
    apply isClass_of_classMask
    rw [← hmask, ← BitVec.and_assoc, h, hmatch]
  · obtain ⟨hmask, hmatch⟩ := rowMask_q i
    exact (extractLsb'_eq_of_and_eq h 6 1 hmask).trans hmatch

/-- Settles O4: a decoded word has the constant bits of its row, and those bits are the boxes the decoder tests. -/
theorem vqrshlWordsByMask : Obligations.VqrshlWordsByMask := by
  intro w
  refine ⟨decodeWord_ok_iff_classMask .a32 w, ⟨?_, fun h => ?a1D⟩, ⟨?_, fun h => ?a1Q⟩,
    decodeWord_ok_iff_classMask .t32 w, ⟨?_, fun h => ?t1D⟩, ⟨?_, fun h => ?t1Q⟩⟩
  case a1D =>
    obtain ⟨hclass, hq⟩ := class_and_q_of_rowMask (i := .vqrshlA1D .s8 0 0 0) h
    exact ⟨_, _, _, _, by rw [decodeWord_of_isA1 hclass, hq]; rfl⟩
  case a1Q =>
    obtain ⟨hclass, hq⟩ := class_and_q_of_rowMask (i := .vqrshlA1Q .s8 0 0 0) h
    exact ⟨_, _, _, _, by rw [decodeWord_of_isA1 hclass, hq]; rfl⟩
  case t1D =>
    obtain ⟨hclass, hq⟩ := class_and_q_of_rowMask (i := .vqrshlT1D .s8 0 0 0) h
    exact ⟨_, _, _, _, by rw [decodeWord_of_isT1 hclass, hq]; rfl⟩
  case t1Q =>
    obtain ⟨hclass, hq⟩ := class_and_q_of_rowMask (i := .vqrshlT1Q .s8 0 0 0) h
    exact ⟨_, _, _, _, by rw [decodeWord_of_isT1 hclass, hq]; rfl⟩
  all_goals
    rintro ⟨dt, d, m, n, h⟩
    exact and_rowMask_of_decodeWord h

/-! ## The decode variables -/

/-- The two variables of the data type, from U and size (R56, R58). -/
theorem unsignedOf_dtOf (u : BitVec 1) (size : BitVec 2) :
    unsignedOf (dtOf u size) = u.getLsbD 0 := by
  revert u size; decide

theorem esizeOf_dtOf (u : BitVec 1) (size : BitVec 2) :
    esizeOf (dtOf u size) = 8 * 2 ^ size.toNat := by
  revert u size; decide

/-- A register number is 16 times the single bit plus the four-bit field (R56). -/
theorem toNat_regField (hi : BitVec 1) (lo : BitVec 4) :
    (hi ++ lo : Reg).toNat = 16 * hi.toNat + lo.toNat := by
  revert hi lo; decide

/-- Q is bit 6, as the choice of one register or two. -/
theorem regs_by_bit6 (w : Word) :
    (if fieldQ w = 0#1 then 1 else 2) = if w.getLsbD 6 = true then 2 else 1 := by
  simp only [fieldQ_eq_zero_iff]
  cases w.getLsbD 6 <;> rfl

/-- The mask of R57 holds the low bits of the three register fields. -/
theorem and_oddMask_ne_zero_iff (w : Word) :
    w &&& 0x00011001#32 ≠ 0#32 ↔
      w.getLsbD 12 = true ∨ w.getLsbD 0 = true ∨ w.getLsbD 16 = true := by
  have hmask : 0x00011001#32 = .twoPow 32 12 ||| .twoPow 32 0 ||| .twoPow 32 16 := by decide
  rw [hmask, BitVec.and_or_distrib_left, BitVec.and_or_distrib_left, BitVec.and_twoPow,
    BitVec.and_twoPow, BitVec.and_twoPow]
  cases w.getLsbD 12 <;> cases w.getLsbD 0 <;> cases w.getLsbD 16 <;> decide

/-- A register is odd when its lowest bit is 1. -/
theorem odd_reg_iff (r : Reg) : r.toNat % 2 = 1 ↔ r.getLsbD 0 = true := by
  revert r; decide

/-- An ill-formed instruction is a Q form with an odd register (R57). -/
theorem not_wellFormed_iff_odd_reg (i : Instr) :
    i.wellFormed = false ↔
      i.regs = 2 ∧ (i.d.toNat % 2 = 1 ∨ i.m.toNat % 2 = 1 ∨ i.n.toNat % 2 = 1) := by
  simp only [odd_reg_iff]
  cases i with
  | vqrshlA1D => simp [Instr.wellFormed, Instr.regs]
  | vqrshlA1Q =>
    simp [Instr.wellFormed, Instr.regs, Instr.d, Instr.m, Instr.n, evenRegs, imp_iff_not_or, or_assoc]
  | vqrshlT1D => simp [Instr.wellFormed, Instr.regs]
  | vqrshlT1Q =>
    simp [Instr.wellFormed, Instr.regs, Instr.d, Instr.m, Instr.n, evenRegs, imp_iff_not_or, or_assoc]

/-- Settles O5: each variable is read from its field by `decodeWord_ok`, and the three forms of the UNDEFINED test agree. -/
theorem decodeVariablesFromTheFields : Obligations.DecodeVariablesFromTheFields := by
  intro iset w i h
  obtain ⟨-, -, hdt, hd, hm, hn, hregs, -⟩ := decodeWord_ok h
  have hodd := not_wellFormed_iff_oddQ h
  refine ⟨?unsigned, ?esize, rfl, hd ▸ toNat_regField _ _, hm ▸ toNat_regField _ _,
    hn ▸ toNat_regField _ _, hregs.trans (regs_by_bit6 w), hodd, ?byMask,
    not_wellFormed_iff_odd_reg i⟩
  case unsigned =>
    rw [hdt, unsignedOf_dtOf]
    cases iset <;> simp [fieldU]
  case esize => rw [hdt, esizeOf_dtOf]; rfl
  case byMask => rw [hodd, and_oddMask_ne_zero_iff]

/-! ## The words as formulas -/

/-- A high part and a low part joined by an or. -/
theorem append_eq_or {v k : Nat} (hi : BitVec v) (lo : BitVec k) :
    hi ++ lo = (hi ++ 0#k) ||| (0#v ++ lo) := by
  rw [BitVec.or_append, BitVec.or_zero, BitVec.zero_or]

/-- The low 24 bits of a word made of two parts. -/
theorem append_and_low24 (hi : BitVec 8) (lo : BitVec 24) :
    (hi ++ lo : Word) &&& 0x00FFFFFF#32 = 0#8 ++ lo := by
  have hmask : (0x00FFFFFF#32 : Word) = 0#8 ++ BitVec.allOnes 24 := by decide
  rw [hmask, BitVec.and_append, BitVec.and_zero, BitVec.and_allOnes]

/-- Bits 31:24 of an A1 word: the class and U at bit 24 (R51). -/
theorem a1High_eq (dt : Dt) :
    0b1111001#7 ++ dt.uBit ++ 0#24 = 0xF2000000#32 ||| dt.uBit.setWidth 32 <<< 24 := by
  generalize dt.uBit = u
  revert u; decide

/-- Bits 31:24 of a T1 word: the class and U at bit 28 (R53). -/
theorem t1High_eq (dt : Dt) :
    0b111#3 ++ dt.uBit ++ 0b1111#4 ++ 0#24 = 0xEF000000#32 ||| dt.uBit.setWidth 32 <<< 28 := by
  generalize dt.uBit = u
  revert u; decide

/-- An A1 word from its low 24 bits (R55). -/
theorem a1Word_eq (dt : Dt) (low : BitVec 24) :
    0b1111001#7 ++ dt.uBit ++ low = 0xF2000000#32 ||| dt.uBit.setWidth 32 <<< 24 ||| (0#8 ++ low) := by
  rw [append_eq_or, ← a1High_eq]

/-- A T1 word from its low 24 bits (R55). -/
theorem t1Word_eq (dt : Dt) (low : BitVec 24) :
    0b111#3 ++ dt.uBit ++ 0b1111#4 ++ low =
      0xEF000000#32 ||| dt.uBit.setWidth 32 <<< 28 ||| (0#8 ++ low) := by
  rw [append_eq_or, ← t1High_eq]

/-- The A1 and the T1 word over one low part convert (R55). -/
theorem a1_t1_convert (dt : Dt) (low : BitVec 24) :
    let a : Word := 0b1111001#7 ++ dt.uBit ++ low
    let t : Word := 0b111#3 ++ dt.uBit ++ 0b1111#4 ++ low
    a &&& 0x00FFFFFF#32 = t &&& 0x00FFFFFF#32 ∧
      t = 0xEF000000#32 ||| dt.uBit.setWidth 32 <<< 28 ||| (a &&& 0x00FFFFFF#32) ∧
      a = 0xF2000000#32 ||| dt.uBit.setWidth 32 <<< 24 ||| (t &&& 0x00FFFFFF#32) := by
  intro a t
  have ha : a &&& 0x00FFFFFF#32 = 0#8 ++ low := append_and_low24 _ low
  have ht : t &&& 0x00FFFFFF#32 = 0#8 ++ low := append_and_low24 _ low
  rw [ha, ht]
  exact ⟨rfl, t1Word_eq dt low, a1Word_eq dt low⟩

/-- Settles O7: the two words share the low 24 bits, D and Q alike. -/
theorem a1AndT1WordsConvert : Obligations.A1AndT1WordsConvert := fun dt d m n =>
  ⟨a1_t1_convert dt (encodeLow dt d m n 0#1), a1_t1_convert dt (encodeLow dt d m n 1#1)⟩

/-- The three constant boxes among the eleven of bits 23:0, collected in front. -/
theorem or_collect_constants (c₁ d₁ size n₄ d₄ c₂ n₁ q m₁ c₃ m₄ : Word) :
    c₁ ||| d₁ ||| size ||| n₄ ||| d₄ ||| c₂ ||| n₁ ||| q ||| m₁ ||| c₃ ||| m₄ =
      c₁ ||| c₂ ||| c₃ ||| d₁ ||| size ||| n₄ ||| d₄ ||| n₁ ||| q ||| m₁ ||| m₄ := by
  ac_rfl

/-- The second of three words joined by ors moves behind the third. -/
theorem or_move_second (a b c x : Word) : a ||| (b ||| (c ||| x)) = a ||| (c ||| (b ||| x)) := by
  ac_rfl

/-- The low 24 bits by shifts and ors (R66). -/
theorem encodeLow_eq_shifts (dt : Dt) (d m n : Reg) (q : BitVec 1) :
    0#8 ++ encodeLow dt d m n q =
      0x510#32 ||| (d.extractLsb' 4 1).setWidth 32 <<< 22 |||
        dt.sizeBits.setWidth 32 <<< 20 ||| (n.extractLsb' 0 4).setWidth 32 <<< 16 |||
        (d.extractLsb' 0 4).setWidth 32 <<< 12 ||| (n.extractLsb' 4 1).setWidth 32 <<< 7 |||
        q.setWidth 32 <<< 6 ||| (m.extractLsb' 4 1).setWidth 32 <<< 5 |||
        (m.extractLsb' 0 4).setWidth 32 := by
  have hwiden (x : BitVec 24) : 0#8 ++ x = x.setWidth 32 :=
    BitVec.eq_of_toNat_eq (by
      rw [BitVec.toNat_append, BitVec.toNat_setWidth_of_le (by decide), BitVec.toNat_zero,
        Nat.zero_shiftLeft, Nat.zero_or])
  have hboxes : 0x510#32 = (0#1).setWidth 32 <<< 23 ||| (0b0101#4).setWidth 32 <<< 8 |||
      (1#1).setWidth 32 <<< 4 := by decide
  rw [hwiden, encodeLow, hboxes]
  simp only [BitVec.setWidth_append_eq_shiftLeft_setWidth_or (w'' := 32),
    BitVec.shiftLeft_or_distrib, ← BitVec.shiftLeft_add, Nat.reduceAdd]
  exact or_collect_constants ..

/-- The formula of R66 is the class and U, then the low 24 bits. -/
theorem asmWord_eq (high : Word) (uPos : Nat) (q : BitVec 1) (dt : Dt) (d m n : Reg) :
    asmWord (high ||| 0x510#32) uPos q dt d m n =
      high ||| dt.uBit.setWidth 32 <<< uPos ||| (0#8 ++ encodeLow dt d m n q) := by
  rw [encodeLow_eq_shifts, asmWord]
  simp only [BitVec.or_assoc]
  rw [or_move_second]

/-- The A1 boxes are the formula of R66. -/
theorem a1Boxes_eq_asmWord (dt : Dt) (d m n : Reg) (q : BitVec 1) :
    0b1111001#7 ++ dt.uBit ++ encodeLow dt d m n q = asmWord 0xF2000510#32 24 q dt d m n :=
  (a1Word_eq dt _).trans (asmWord_eq 0xF2000000#32 24 q dt d m n).symm

/-- The T1 boxes are the formula of R66. -/
theorem t1Boxes_eq_asmWord (dt : Dt) (d m n : Reg) (q : BitVec 1) :
    0b111#3 ++ dt.uBit ++ 0b1111#4 ++ encodeLow dt d m n q =
      asmWord 0xEF000510#32 28 q dt d m n :=
  (t1Word_eq dt _).trans (asmWord_eq 0xEF000000#32 28 q dt d m n).symm

/-- Settles O8: both sides are the class and U above the same low 24 bits. -/
theorem encodeIsTheAssemblersFormula : Obligations.EncodeIsTheAssemblersFormula := fun dt d m n =>
  ⟨a1Boxes_eq_asmWord dt d m n 0#1, a1Boxes_eq_asmWord dt d m n 1#1,
    t1Boxes_eq_asmWord dt d m n 0#1, t1Boxes_eq_asmWord dt d m n 1#1⟩

end Sys2Proof
end

section
/-! PROOFS. The byte layout (20_memory.md R43; O10) and the assembler (30_encoding.md R64 to R69; O9). -/

namespace Sys2Proof

/-! ## Bytes -/

/-- Four bytes at ascending addresses and the word they are (R43). -/
theorem bytesOfWord_eq (iset : ISet) (w : Word) :
    ∃ b0 b1 b2 b3, bytesOfWord iset w = [b0, b1, b2, b3] ∧ wordOfBytes iset b0 b1 b2 b3 = w := by
  cases iset <;>
  · refine ⟨_, _, _, _, rfl, ?_⟩
    simp (disch := decide) only [wordOfBytes, BitVec.extractLsb'_append_extractLsb'_eq_extractLsb']
    exact BitVec.extractLsb'_eq_self

/-- The byte decoder on four bytes or more is the word decoder (R43). -/
theorem decodeBytes_bytesOfWord {iset : ISet} {w : Word} {i : Instr}
    (h : decodeWord iset w = .ok i) (rest : List Byte) :
    decodeBytes iset (bytesOfWord iset w ++ rest) = .ok (i, rest) := by
  obtain ⟨b0, b1, b2, b3, hbytes, hword⟩ := bytesOfWord_eq iset w
  rw [hbytes]
  simp only [decodeBytes, List.cons_append, List.nil_append, hword, h]

/-- The word decoder never answers `truncated`. -/
theorem decodeWord_ne_truncated (iset : ISet) (w : Word) :
    decodeWord iset w ≠ .error .truncated := by
  cases hclass : isClass iset w with
  | false => simp [decodeWord_of_not_isClass hclass]
  | true =>
    obtain ⟨i, hi⟩ := decodeWord_of_isClass hclass
    simp [hi]

/-- The byte decoder answers `truncated` exactly below four bytes (R50). -/
theorem decodeBytes_truncated_iff (iset : ISet) (bs : List Byte) :
    decodeBytes iset bs = .error .truncated ↔ bs.length < 4 := by
  match bs with
  | [] | [_] | [_, _] | [_, _, _] => simp [decodeBytes]
  | b0 :: b1 :: b2 :: b3 :: rest =>
    have hlong : ¬(b0 :: b1 :: b2 :: b3 :: rest).length < 4 := by simp
    refine iff_of_false (fun h => ?_) hlong
    simp only [decodeBytes] at h
    split at h
    · cases h
    · next herror => exact decodeWord_ne_truncated iset _ (Except.error.inj h ▸ herror)

/-- Settles O10: the bytes of a word are put together again, and the word decodes. -/
theorem bytesOfAnInstructionDecode : Obligations.BytesOfAnInstructionDecode :=
  ⟨fun i rest => decodeBytes_bytesOfWord (decodeWord_encode i) rest, decodeBytes_truncated_iff,
    by decide, by decide⟩

end Sys2Proof

namespace Sys2Proof.Machine

/-! ## The assembler -/

/-- The first D register of a Q register is even (R22, R66). -/
theorem asmQ_even (q : BitVec 4) : (asmQ q).getLsbD 0 = false ∧ (asmQ q).toNat = 2 * q.toNat := by
  revert q; decide

/-- Q operands make even registers (R66). -/
theorem evenRegs_asmQ (d m n : BitVec 4) : evenRegs (asmQ d) (asmQ m) (asmQ n) = true :=
  (evenRegs_iff _ _ _).mpr ⟨(asmQ_even d).1, (asmQ_even m).1, (asmQ_even n).1⟩

/-- Assembling answers an instruction but for a condition on an A1 line (R68). -/
theorem assemble_eq (iset : ISet) (line : AsmLine) :
    assemble iset line =
      if iset = .a32 ∧ line.cond = .conditional then .error .mustBeUnconditional
      else .ok (asmInstr iset line.dt line.operands) := by
  unfold assemble
  cases iset <;> cases line.cond <;> rfl

/-- The operands' instruction is well formed, of the instruction set and the data type of the line (R61, R66). -/
theorem asmInstr_wellFormed (iset : ISet) (dt : Dt) (ops : AsmOperands) :
    (asmInstr iset dt ops).wellFormed = true ∧ (asmInstr iset dt ops).iset = iset ∧
      (asmInstr iset dt ops).dt = dt := by
  cases iset <;> cases ops with
  | dForm => exact ⟨rfl, rfl, rfl⟩
  | qForm => exact ⟨evenRegs_asmQ _ _ _, rfl, rfl⟩

/-- The registers of the D template (R64, R67). -/
theorem asmInstr_dForm (iset : ISet) (dt : Dt) (d : Option Reg) (m n : Reg) :
    let i := asmInstr iset dt (.dForm d m n)
    i.regs = 1 ∧ i.d = d.getD m ∧ i.m = m ∧ i.n = n := by
  cases iset <;> exact ⟨rfl, rfl, rfl, rfl⟩

/-- The registers of the Q template, doubled (R64, R66, R67). -/
theorem asmInstr_qForm (iset : ISet) (dt : Dt) (q : Option (BitVec 4)) (m n : BitVec 4) :
    let i := asmInstr iset dt (.qForm q m n)
    i.regs = 2 ∧ i.d.toNat = 2 * (q.getD m).toNat ∧ i.m.toNat = 2 * m.toNat ∧
      i.n.toNat = 2 * n.toNat := by
  cases iset <;> exact ⟨rfl, (asmQ_even _).2, (asmQ_even _).2, (asmQ_even _).2⟩

/-- Settles O9: `assemble_eq` says when there is an instruction, the facts about `asmInstr` what it is. -/
theorem assembledLinesAreWellFormed : Obligations.AssembledLinesAreWellFormed := by
  intro iset line
  rw [assemble_eq]
  split
  · next hrefused => exact ⟨iff_of_true ⟨_, rfl⟩ hrefused, fun i h => by cases h⟩
  · next hallowed =>
    refine ⟨by simp [hallowed], fun i h => ?_⟩
    obtain rfl := Except.ok.inj h
    obtain ⟨hwf, hiset, hdt⟩ := asmInstr_wellFormed iset line.dt line.operands
    refine ⟨hwf, hiset, hdt, fun d m n hops => ?dForm, fun q m n hops => ?qForm⟩
    case dForm => rw [hops]; exact asmInstr_dForm iset line.dt d m n
    case qForm => rw [hops]; exact asmInstr_qForm iset line.dt q m n

end Sys2Proof.Machine
end

section
/-! PROOFS. The result element (40_vqrshl.md R77 to R81, R91; O12 to O16). -/

namespace Sys2Proof.Machine

/-! ## The exact value and the clamp -/

/-- An element has at least one bit (R56). -/
theorem esizeOf_pos (dt : Dt) : 0 < esizeOf dt := by cases dt <;> decide

/-- Clamping by comparisons is clamping by `max` and `min`, for bounds in order. -/
theorem clamp_eq_max_min {lo hi x : Int} (h : lo ≤ hi) :
    (if hi < x then hi else if x < lo then lo else x) = max lo (min hi x) := by
  split
  · omega
  · split <;> omega

/-- The value of the result element: the exact value clamped (R77, R80). -/
theorem intOf_lane (dt : Dt) (u : Bool) (op cnt : BitVec (esizeOf dt)) :
    intOf (lane u op cnt).1 u =
      max (satLo (esizeOf dt) u)
        (min (satHi (esizeOf dt) u) (roundingShift (intOf op u) (shiftCount cnt))) :=
  (satQ_value (esizeOf_pos dt) _ u).trans (clamp_eq_max_min (satLo_le_satHi _ u))

/-- The flag of the result element: whether the exact value is out of range (R80). -/
theorem lane_flag (u : Bool) {size : Nat} (op cnt : BitVec size) :
    (lane u op cnt).2 = true ↔
      roundingShift (intOf op u) (shiftCount cnt) < satLo size u ∨
        satHi size u < roundingShift (intOf op u) (shiftCount cnt) :=
  satQ_flag _ _ _

/-- Settles O12: `intOf_lane` and `lane_flag`, with the exact value and the bounds written out. -/
theorem laneClampsTheExactValue : Obligations.LaneClampsTheExactValue := fun dt op cnt =>
  ⟨intOf_lane dt (unsignedOf dt) op cnt, lane_flag (unsignedOf dt) op cnt⟩

/-- An exact value in range is the result, unsaturated (R80). -/
theorem lane_of_in_range {dt : Dt} {u : Bool} {op cnt : BitVec (esizeOf dt)}
    (hlo : satLo (esizeOf dt) u ≤ roundingShift (intOf op u) (shiftCount cnt))
    (hhi : roundingShift (intOf op u) (shiftCount cnt) ≤ satHi (esizeOf dt) u) :
    (lane u op cnt).2 = false ∧
      intOf (lane u op cnt).1 u = roundingShift (intOf op u) (shiftCount cnt) := by
  constructor
  · rw [← Bool.not_eq_true, lane_flag]
    omega
  · rw [intOf_lane]
    omega

/-! ## Right shifts -/

/-- A negative count is a right shift by one place or more (R79). -/
theorem exists_right_places {sh : Int} (h : sh < 0) :
    ∃ k : Nat, sh = -(k + 1 : Int) ∧ (-sh).toNat = k + 1 :=
  ⟨(-sh).toNat - 1, by omega, by omega⟩

/-- Zero lies in the range of every type (R14). -/
theorem sat_bounds_zero (size : Nat) (u : Bool) : satLo size u ≤ 0 ∧ 0 ≤ satHi size u := by
  have h := intOf_range (0#size) u
  have hzero : intOf (0#size) u = 0 := by cases u <;> simp [intOf]
  rwa [hzero] at h

/-- A rounding right shift stays in a range around zero (R79). -/
theorem rounding_div_in_range {lo hi x : Int} (k : Nat) (hlo : lo ≤ 0) (hhi : 0 ≤ hi) (h1 : lo ≤ x)
    (h2 : x ≤ hi) : lo ≤ (x + 2 ^ k) / 2 ^ (k + 1) ∧ (x + 2 ^ k) / 2 ^ (k + 1) ≤ hi := by
  have hpos : (0 : Int) < 2 ^ k := by positivity
  have hdouble : (2 : Int) ^ (k + 1) = 2 * 2 ^ k := pow_succ' 2 k
  constructor
  · rw [Int.le_ediv_iff_mul_le (by positivity)]
    nlinarith
  · rw [← Int.lt_add_one_iff, Int.ediv_lt_iff_lt_mul (by positivity)]
    nlinarith

/-- A right shift never saturates, and its result is the rounded quotient (R79, R81). -/
theorem lane_right {dt : Dt} {u : Bool} {op cnt : BitVec (esizeOf dt)} (k : Nat)
    (h : shiftCount cnt = -(k + 1 : Int)) :
    (lane u op cnt).2 = false ∧
      intOf (lane u op cnt).1 u = (intOf op u + 2 ^ k) / 2 ^ (k + 1) := by
  rw [← roundingShift_right _ k h]
  obtain ⟨hzlo, hzhi⟩ := sat_bounds_zero (esizeOf dt) u
  obtain ⟨hlo, hhi⟩ := intOf_range op u
  have hrange := rounding_div_in_range k hzlo hzhi hlo hhi
  rw [← roundingShift_right _ k h] at hrange
  exact lane_of_in_range hrange.1 hrange.2

/-- Settles O13: the remainder of the floor division bounds the rounding error. -/
theorem rightShiftRoundsToNearest : Obligations.RightShiftRoundsToNearest := by
  intro dt op cnt hneg u s v
  obtain ⟨k, hk, hplaces⟩ := exists_right_places hneg
  obtain ⟨hflag, hvalue⟩ := lane_right (u := u) (op := op) k hk
  have hs : s = k + 1 := hplaces
  have hv : v = (intOf op u + 2 ^ k) / 2 ^ (k + 1) := hvalue
  have hdouble : (2 : Int) ^ (k + 1) = 2 * 2 ^ k := pow_succ' 2 k
  have hpos : (0 : Int) < 2 ^ (k + 1) := by positivity
  have hdiv := Int.mul_ediv_add_emod (intOf op u + 2 ^ k) (2 ^ (k + 1))
  have hlow := Int.emod_nonneg (intOf op u + 2 ^ k) hpos.ne'
  have hhigh := Int.emod_lt_of_pos (intOf op u + 2 ^ k) hpos
  rw [hs, hv, Nat.add_sub_cancel, mul_comm]
  exact ⟨hflag, by omega, by omega⟩

/-- A rounded quotient of a number below half the divisor is zero (R79). -/
theorem rounding_div_eq_zero {x : Int} {k : Nat} (h1 : -(2 ^ k) ≤ x) (h2 : x < 2 ^ k) :
    (x + 2 ^ k) / 2 ^ (k + 1) = 0 := by
  have hdouble : (2 : Int) ^ (k + 1) = 2 * 2 ^ k := pow_succ' 2 k
  exact Int.ediv_eq_zero_of_lt (by omega) (by omega)

/-- A rounded quotient of a number from half the divisor to below the divisor is one (R79). -/
theorem rounding_div_eq_one {x : Int} {k : Nat} (h1 : 2 ^ k ≤ x) (h2 : x < 2 ^ (k + 1)) :
    (x + 2 ^ k) / 2 ^ (k + 1) = 1 := by
  have hdouble : (2 : Int) ^ (k + 1) = 2 * 2 ^ k := pow_succ' 2 k
  have hsplit : x + 2 ^ k = (x - 2 ^ k) + 1 * 2 ^ (k + 1) := by omega
  rw [hsplit, Int.add_mul_ediv_right _ _ (by positivity),
    Int.ediv_eq_zero_of_lt (by omega) (by omega), zero_add]

/-- The value of a zero element. -/
theorem intOf_zero (size : Nat) (u : Bool) : intOf (0#size) u = 0 := by
  cases u <;> simp [intOf]

/-- The value of an unsigned one. -/
theorem intOf_one {size : Nat} (h : 0 < size) : intOf (1#size) true = 1 := by
  have hone : (1#size).toNat = 1 := Nat.mod_eq_of_lt (Nat.one_lt_two_pow h.ne')
  simp [intOf, hone]

/-- A right shift of an element below half the divisor gives a zero element (R79). -/
theorem lane_right_eq_zero {dt : Dt} {u : Bool} {op cnt : BitVec (esizeOf dt)} {k : Nat}
    (h : shiftCount cnt = -(k + 1 : Int)) (h1 : -(2 ^ k) ≤ intOf op u) (h2 : intOf op u < 2 ^ k) :
    (lane u op cnt).1 = 0#(esizeOf dt) := by
  apply eq_of_intOf_eq u
  rw [(lane_right k h).2, rounding_div_eq_zero h1 h2, intOf_zero]

/-- Settles O14: the divisor is at least twice a signed element's magnitude, and at least an unsigned element's bound. -/
theorem rightShiftByTheSizeOrMore : Obligations.RightShiftByTheSizeOrMore := by
  intro dt op cnt hcount
  have hsize := esizeOf_pos dt
  obtain ⟨k, hk, -⟩ := exists_right_places (sh := shiftCount cnt) (by omega)
  have hplaces : esizeOf dt ≤ k + 1 := by omega
  refine ⟨(lane_right k hk).1, fun hu => ?signed, fun hu hat => ?topBit, fun hu hbelow => ?below⟩
  all_goals
    rw [hu]
    obtain ⟨hlo, hhi⟩ := intOf_range op (unsignedOf dt)
    rw [hu] at hlo hhi
    simp only [satLo, satHi, if_true, Bool.false_eq_true, if_false] at hlo hhi
  case signed =>
    have hpow : (2 : Int) ^ (esizeOf dt - 1) ≤ 2 ^ k :=
      pow_le_pow_right₀ (by norm_num) (by omega)
    exact lane_right_eq_zero hk (by omega) (by omega)
  case topBit =>
    obtain rfl : k = esizeOf dt - 1 := by omega
    have hval : intOf op true = (op.toNat : Int) := rfl
    have hcast : ((2 ^ (esizeOf dt - 1) : Nat) : Int) = 2 ^ (esizeOf dt - 1) := by push_cast; rfl
    split
    · next htop =>
      apply eq_of_intOf_eq true
      have hfull : esizeOf dt - 1 + 1 = esizeOf dt := Nat.sub_add_cancel hsize
      rw [(lane_right _ hk).2, intOf_one hsize]
      exact rounding_div_eq_one (by omega) (by rw [hfull]; omega)
    · next htop => exact lane_right_eq_zero hk (by omega) (by omega)
  case below =>
    have hpow : (2 : Int) ^ esizeOf dt ≤ 2 ^ k := pow_le_pow_right₀ (by norm_num) (by omega)
    exact lane_right_eq_zero hk (by omega) (by omega)

/-! ## Saturation -/

/-- When a left shift reaches a power of two (R81). -/
theorem two_pow_le_mul_iff (x : Int) (n s : Nat) :
    2 ^ n ≤ x * 2 ^ s ↔ 0 < x ∧ (n ≤ s ∨ 2 ^ (n - s) ≤ x) := by
  have hs : (0 : Int) < 2 ^ s := by positivity
  have hn : (0 : Int) < 2 ^ n := by positivity
  by_cases hle : n ≤ s
  · have hpow : (2 : Int) ^ n ≤ 2 ^ s := pow_le_pow_right₀ (by norm_num) hle
    simp only [hle, true_or, and_true]
    exact ⟨fun h => (mul_pos_iff_of_pos_right hs).mp (hn.trans_le h), fun h => by nlinarith⟩
  · have hsplit : (2 : Int) ^ n = 2 ^ (n - s) * 2 ^ s := by
      rw [← pow_add, Nat.sub_add_cancel (by omega)]
    have hrest : (0 : Int) < 2 ^ (n - s) := by positivity
    rw [hsplit, mul_le_mul_iff_left₀ hs]
    simp only [hle, false_or]
    exact ⟨fun h => ⟨by omega, h⟩, And.right⟩

/-- When a left shift passes below the negative of a power of two (R81). -/
theorem mul_lt_neg_two_pow_iff (x : Int) (n s : Nat) :
    x * 2 ^ s < -(2 ^ n) ↔ x < 0 ∧ (n + 1 ≤ s ∨ x < -(2 ^ (n - s))) := by
  have hs : (0 : Int) < 2 ^ s := by positivity
  have hn : (0 : Int) < 2 ^ n := by positivity
  by_cases hle : n + 1 ≤ s
  · have hpow : (2 : Int) ^ (n + 1) ≤ 2 ^ s := pow_le_pow_right₀ (by norm_num) hle
    have hdouble : (2 : Int) ^ (n + 1) = 2 * 2 ^ n := pow_succ' 2 n
    simp only [hle, true_or, and_true]
    exact ⟨fun h => by nlinarith, fun h => by nlinarith⟩
  · have hsplit : (2 : Int) ^ n = 2 ^ (n - s) * 2 ^ s := by
      rw [← pow_add, Nat.sub_add_cancel (by omega)]
    have hrest : (0 : Int) < 2 ^ (n - s) := by positivity
    rw [hsplit, ← neg_mul, mul_lt_mul_iff_left₀ hs]
    simp only [hle, false_or]
    exact ⟨fun h => ⟨by omega, h⟩, And.right⟩

/-- The unsigned test for a left shift by `s` places (R81): an unsigned element is never below its bound. -/
theorem lane_flag_left_unsigned {dt : Dt} {op cnt : BitVec (esizeOf dt)} {s : Nat}
    (h : shiftCount cnt = s) :
    (lane true op cnt).2 = true ↔
      0 < intOf op true ∧ (esizeOf dt ≤ s ∨ 2 ^ (esizeOf dt - s) ≤ intOf op true) := by
  have hexact := roundingShift_left (x := intOf op true) (sh := shiftCount cnt) (by omega)
  have hnonneg : 0 ≤ intOf op true * 2 ^ s := mul_nonneg (intOf_range op true).1 (by positivity)
  have hlo : satLo (esizeOf dt) true = 0 := rfl
  have hhi : satHi (esizeOf dt) true = 2 ^ esizeOf dt - 1 := rfl
  rw [← two_pow_le_mul_iff, lane_flag, hexact, h, Int.toNat_natCast]
  omega

/-- The signed test for a left shift by `s` places (R81), at both bounds. -/
theorem lane_flag_left_signed {dt : Dt} {op cnt : BitVec (esizeOf dt)} {s : Nat}
    (h : shiftCount cnt = s) :
    (lane false op cnt).2 = true ↔
      (intOf op false < 0 ∧
        (esizeOf dt ≤ s ∨ intOf op false < -(2 ^ (esizeOf dt - 1 - s)))) ∨
      (0 < intOf op false ∧
        (esizeOf dt - 1 ≤ s ∨ 2 ^ (esizeOf dt - 1 - s) ≤ intOf op false)) := by
  have hexact := roundingShift_left (x := intOf op false) (sh := shiftCount cnt) (by omega)
  have hlow := mul_lt_neg_two_pow_iff (intOf op false) (esizeOf dt - 1) s
  rw [Nat.sub_add_cancel (esizeOf_pos dt)] at hlow
  rw [← two_pow_le_mul_iff, ← hlow, lane_flag, hexact, h, Int.toNat_natCast]
  exact or_congr_right Int.sub_one_lt_iff

/-- Settles O15: a right shift never saturates; a left shift does when the exact product reaches a bound. -/
theorem saturatesByTheFixedWidthTests : Obligations.SaturatesByTheFixedWidthTests := by
  intro dt op cnt x size sh
  have hsize := esizeOf_pos dt
  rcases lt_or_ge sh 0 with hneg | hpos
  · obtain ⟨k, hk, -⟩ := exists_right_places hneg
    simp [(lane_right (u := unsignedOf dt) (op := op) k hk).1, hneg.not_ge]
  · obtain ⟨s, hs⟩ := Int.eq_ofNat_of_zero_le hpos
    have hfull : (size - sh).toNat = esizeOf dt - s := by omega
    have hhalf : (size - 1 - sh).toNat = esizeOf dt - 1 - s := by omega
    have hle : size ≤ sh ↔ esizeOf dt ≤ s := by omega
    have hle' : size - 1 ≤ sh ↔ esizeOf dt - 1 ≤ s := by omega
    rw [hfull, hhalf, hle, hle', and_iff_right hpos]
    cases hu : unsignedOf dt with
    | true =>
      have hx : x = intOf op true := by rw [← hu]
      rw [lane_flag_left_unsigned hs, ← hx, if_pos rfl]
    | false =>
      have hx : x = intOf op false := by rw [← hu]
      rw [lane_flag_left_signed hs, ← hx, if_neg Bool.false_ne_true]
      split <;> omega

/-! ## Identities -/

/-- An element whose exact value is an element's is that element, unsaturated. -/
theorem lane_eq_of_exact {dt : Dt} {u : Bool} {op cnt res : BitVec (esizeOf dt)}
    (h : roundingShift (intOf op u) (shiftCount cnt) = intOf res u) :
    lane u op cnt = (res, false) := by
  obtain ⟨hlo, hhi⟩ := intOf_range res u
  obtain ⟨hflag, hvalue⟩ := lane_of_in_range (h ▸ hlo) (h ▸ hhi)
  exact Prod.ext (eq_of_intOf_eq u (hvalue.trans h)) hflag

/-- Zero stays zero under every shift (R91). -/
theorem roundingShift_zero (sh : Int) : roundingShift 0 sh = 0 := by
  rcases lt_or_ge sh 0 with hneg | hpos
  · obtain ⟨k, hk, -⟩ := exists_right_places hneg
    have hpow : (0 : Int) < 2 ^ k := by positivity
    rw [roundingShift_right 0 k hk, rounding_div_eq_zero (by omega) hpow]
  · rw [roundingShift_left hpos, zero_mul]

/-- A zero count copies the element, unsaturated (R91). -/
theorem lane_of_count_zero {dt : Dt} {u : Bool} {op cnt : BitVec (esizeOf dt)}
    (h : shiftCount cnt = 0) : lane u op cnt = (op, false) :=
  lane_eq_of_exact (by simp [h, roundingShift])

/-- A signed count of -1 halves, rounding up (R91). -/
theorem lane_signed_half {dt : Dt} {cnt : BitVec (esizeOf dt)} (h : shiftCount cnt = -1)
    {x y : Int} (hx : satLo (esizeOf dt) false ≤ x ∧ x ≤ satHi (esizeOf dt) false)
    (hy : satLo (esizeOf dt) false ≤ y ∧ y ≤ satHi (esizeOf dt) false) (hhalf : (x + 1) / 2 = y) :
    (lane false (BitVec.ofInt (esizeOf dt) x) cnt).1 = BitVec.ofInt (esizeOf dt) y := by
  have hsize := esizeOf_pos dt
  have hexact := roundingShift_right x (sh := -1) 0 rfl
  rw [lane_eq_of_exact]
  rw [h, intOf_ofInt hsize false hx.1 hx.2, intOf_ofInt hsize false hy.1 hy.2, hexact]
  exact hhalf

/-- Settles O16: each exact value is an element's own. -/
theorem laneIdentities : Obligations.LaneIdentities := by
  intro dt cnt
  refine ⟨lane_eq_of_exact ?zero, fun h op => lane_of_count_zero h, fun _ h => ?halves⟩
  case zero => rw [intOf_zero, roundingShift_zero]
  case halves =>
    have hpow : (2 : Int) ^ (esizeOf dt - 1) = 2 * 2 ^ (esizeOf dt - 2) :=
      two_pow_pred (by cases dt <;> decide)
    have hpos : (0 : Int) < 2 ^ (esizeOf dt - 2) := by positivity
    have hlo : satLo (esizeOf dt) false = -(2 ^ (esizeOf dt - 1)) := rfl
    have hhi : satHi (esizeOf dt) false = 2 ^ (esizeOf dt - 1) - 1 := rfl
    constructor <;> exact lane_signed_half h (by omega) (by omega) (by omega)

end Sys2Proof.Machine
end

section
/-! PROOFS. What the loops of VQRSHL leave (40_vqrshl.md R75, R82, R87, R90, R91; 10_state.md R22 to R25, R33; O17, O18, O21,
O23 to O28), and the two conditional encodings (O19, O29). -/

namespace Sys2Proof.Machine

/-! ## The registers of an operand -/

/-- Registers of one operand are distinct (R22, R24). -/
theorem regAt_inj {base : Reg} {r r' : Nat} (hr : r < 2) (hr' : r' < 2)
    (h : regAt base r = regAt base r') : r = r' := by
  have hn := congrArg BitVec.toNat (add_left_cancel h)
  simpa [Nat.mod_eq_of_lt (hr.trans (by decide : 2 < 32)),
    Nat.mod_eq_of_lt (hr'.trans (by decide : 2 < 32))] using hn

/-- A legal operation has one or two registers per operand (R56, R57). -/
theorem legalShape.lt_two {regs : Nat} {d m n : Reg} (h : legalShape regs d m n) {r : Nat}
    (hr : r < regs) : r < 2 := by
  obtain rfl | ⟨rfl, -⟩ := h <;> omega

/-- In a legal operation a source register that is also a destination register stands in the same place of its operand (R57,
R87): a pass writes no register that a later pass reads. -/
theorem legalShape.same_place {regs : Nat} {d m n : Reg} (h : legalShape regs d m n) {r r' : Nat}
    (hr : r < regs) (hr' : r' < regs) :
    (regAt m r = regAt d r' → r = r') ∧ (regAt n r = regAt d r' → r = r') := by
  obtain rfl | ⟨rfl, heven⟩ := h
  · omega
  · obtain ⟨hd, hm, hn⟩ := (evenRegs_iff d m n).mp heven
    have place {i : Reg} (hi : i.getLsbD 0 = false) (heq : regAt i r = regAt d r') : r = r' := by
      interval_cases r <;> interval_cases r'
      · rfl
      · exact absurd heq.symm (regAt_one_ne_of_even hd hi)
      · exact absurd heq (regAt_one_ne_of_even hi hd)
      · rfl
    exact ⟨place hm, place hn⟩

/-! ## The loops -/

theorem vectorLoop_pc (dt : Dt) (d m n : Reg) (regs : Nat) (s : State) :
    (vectorLoop dt d m n regs s).pc = s.pc := by
  induction regs with
  | zero => rfl
  | succ k ih => rw [vectorLoop_succ, elementLoop_pc, ih]

theorem vectorLoop_params (dt : Dt) (d m n : Reg) (regs : Nat) (s : State) :
    (vectorLoop dt d m n regs s).params = s.params := by
  induction regs with
  | zero => rfl
  | succ k ih => rw [vectorLoop_succ, elementLoop_params, ih]

/-- The loops write the destination registers alone (R33). -/
theorem vectorLoop_other (dt : Dt) (d m n : Reg) (regs : Nat) (s : State) {i : Reg}
    (hi : ∀ r < regs, i ≠ regAt d r) : (vectorLoop dt d m n regs s).readD i = s.readD i := by
  induction regs with
  | zero => rfl
  | succ k ih =>
    rw [vectorLoop_succ, elementLoop_other dt d m n k _ (hi k k.lt_succ_self),
      ih fun r hr => hi r (hr.trans k.lt_succ_self)]

/-- Each destination element is the result on the operands as they stood before the loops (R77, R87). -/
theorem vectorLoop_elem (dt : Dt) {d m n : Reg} {regs : Nat} (h : legalShape regs d m n) (s : State)
    {r e : Nat} (hr : r < regs) (he : e < elementsOf dt) :
    elem ((vectorLoop dt d m n regs s).readD (regAt d r)) e (esizeOf dt) =
      (laneOut dt m n s r e).1 := by
  obtain rfl | ⟨rfl, heven⟩ := h
  · obtain rfl : r = 0 := by omega
    exact elementLoop_elem dt d m n 0 s he
  · rw [vectorLoop_two]
    interval_cases r
    · have hne : regAt d 0 ≠ regAt d 1 := fun heq => absurd (regAt_inj (by decide) (by decide) heq)
        (by decide)
      rw [elementLoop_other dt d m n 1 _ hne, elementLoop_elem dt d m n 0 s he]
    · rw [elementLoop_elem dt d m n 1 _ he, laneOut_one_elementLoop_zero dt heven]

/-- Everything a completed operation leaves (R75, R77, R82; R25, R27, R29, R30, R33). -/
theorem vectorResult_of_legal (dt : Dt) {d m n : Reg} {regs : Nat} (h : legalShape regs d m n)
    (s : State) : VectorResult dt d m n regs s (vectorLoop dt d m n regs s).advancePc where
  elements _ hr _ he := vectorLoop_elem dt h s hr he
  qc := vectorLoop_qc dt h s
  registers _ hi := vectorLoop_other dt d m n regs s hi
  fpscrRest := vectorLoop_rest dt d m n regs s
  pc := congrArg (· + 4#32) (vectorLoop_pc dt d m n regs s)
  env := vectorLoop_env dt d m n regs s
  params := vectorLoop_params dt d m n regs s
  program a := by rw [State.advancePc_params, vectorLoop_params]

/-! ## Completion -/

/-- The enable check passes its body where Advanced SIMD is permitted (R19). -/
theorem ifAdvSIMDEnabled_of_permitted {s : State} (h : s.advSIMDAccess = .permitted)
    (body : Host.Outcome State Fault Refusal) : ifAdvSIMDEnabled s body = body := by
  rw [ifAdvSIMDEnabled, h]

/-- A well-formed instruction whose checks pass completes with the operation (R75). -/
theorem exec_of_passed {i : Instr} {s : State} (hc : s.conditionPassed i.iset = true)
    (hwf : i.wellFormed = true) (ha : s.advSIMDAccess = .permitted) :
    exec i s = .next (vectorLoop i.dt i.d i.m i.n i.regs s).advancePc := by
  rw [exec_eq, if_pos hc, if_pos hwf, ifAdvSIMDEnabled_of_permitted ha]

/-- A failed condition only advances the pc (R75 lines 1 to 3). -/
theorem exec_of_failed {i : Instr} {s : State} (hc : s.conditionPassed i.iset = false) :
    exec i s = .next s.advancePc := by
  rw [exec_eq, hc, if_neg Bool.false_ne_true]

/-- A well-formed instruction whose checks pass completes with the vector result. -/
theorem exec_completes {i : Instr} {s : State} (hc : s.conditionPassed i.iset = true)
    (hwf : i.wellFormed = true) (ha : s.advSIMDAccess = .permitted) :
    ∃ t, exec i s = .next t ∧ VectorResult i.dt i.d i.m i.n i.regs s t :=
  ⟨_, exec_of_passed hc hwf ha, vectorResult_of_legal i.dt (legalShape_of_wellFormed hwf) s⟩

/-- Settles O17: a D form is well formed whatever its registers. -/
theorem dFormsCompleteWithTheVectorResult : Obligations.DFormsCompleteWithTheVectorResult :=
  fun dt d m n _ ha =>
    ⟨exec_completes (i := .vqrshlA1D dt d m n) rfl rfl ha,
      fun hc => exec_completes (i := .vqrshlT1D dt d m n) hc rfl ha⟩

/-- Even numbers pass the UNDEFINED test (R57). -/
theorem evenRegs_of_mod_two {d m n : Reg} (hd : d.toNat % 2 = 0) (hm : m.toNat % 2 = 0)
    (hn : n.toNat % 2 = 0) : evenRegs d m n = true := by
  have even {r : Reg} (hr : r.toNat % 2 = 0) : r.getLsbD 0 = false := by
    rw [← Bool.not_eq_true, ← odd_reg_iff]
    omega
  exact (evenRegs_iff d m n).mpr ⟨even hd, even hm, even hn⟩

/-- Settles O18: even registers make a Q form well formed. -/
theorem qFormsCompleteWithTheVectorResult : Obligations.QFormsCompleteWithTheVectorResult :=
  fun dt d m n _ ha hd hm hn =>
    have heven := evenRegs_of_mod_two hd hm hn
    ⟨exec_completes (i := .vqrshlA1Q dt d m n) rfl heven ha,
      fun hc => exec_completes (i := .vqrshlT1Q dt d m n) hc heven ha⟩

/-- Settles O19: `exec_of_failed` for the two conditional encodings. -/
theorem failedConditionOnlyAdvancesThePc : Obligations.FailedConditionOnlyAdvancesThePc :=
  fun dt d m n _ hc =>
    ⟨exec_of_failed (i := .vqrshlT1D dt d m n) hc, exec_of_failed (i := .vqrshlT1Q dt d m n) hc⟩

/-- Settles O29: behind a passed condition the T1 meaning is the A1 meaning. -/
theorem a1AndT1HaveOneEffect : Obligations.A1AndT1HaveOneEffect := fun _ _ _ _ _ hc =>
  ⟨if_pos hc, if_pos hc⟩

/-! ## What the checks read -/

/-- The condition reads the pc, `env` and the parameters (R10). -/
theorem conditionPassed_congr {s s' : State} (hpc : s'.pc = s.pc) (henv : s'.env = s.env)
    (hparams : s'.params = s.params) (iset : ISet) :
    s'.conditionPassed iset = s.conditionPassed iset := by
  cases iset with
  | a32 => rfl
  | t32 => rw [State.conditionPassed, State.conditionPassed, hpc, henv, hparams]

/-- The enable check reads `env` and the parameters (R9). -/
theorem advSIMDAccess_congr {s s' : State} (henv : s'.env = s.env)
    (hparams : s'.params = s.params) : s'.advSIMDAccess = s.advSIMDAccess := by
  rw [State.advSIMDAccess, State.advSIMDAccess, henv, hparams]

/-- Settles O21: the rules of `exec_fault_iff` read no D register and no FPSCR. -/
theorem faultsDoNotDependOnData : Obligations.FaultsDoNotDependOnData := by
  intro i s s' hpc henv hparams f
  rw [exec_fault_iff, exec_fault_iff, conditionPassed_congr hpc henv hparams,
    advSIMDAccess_congr henv hparams, hpc]

/-! ## The whole destination register -/

/-- The first `k` elements of a word that is made element by element. -/
theorem elem_foldl_setElem (dt : Dt) (res : Nat → BitVec (esizeOf dt)) {k : Nat}
    (hk : k ≤ elementsOf dt) (v : DWord) {f : Nat} (hf : f < elementsOf dt) :
    elem ((List.range k).foldl (fun acc e => setElem acc e (esizeOf dt) (res e)) v) f (esizeOf dt) =
      if f < k then res f else elem v f (esizeOf dt) := by
  induction k with
  | zero => rfl
  | succ k ih =>
    have hrange := elem_in_range dt hf
    rw [List.range_succ, List.foldl_append, List.foldl_cons, List.foldl_nil]
    by_cases hfk : f = k
    · subst hfk
      rw [elem_setElem_same _ _ _ _ hrange, if_pos f.lt_succ_self]
    · rw [elem_setElem_other _ _ _ _ _ hfk hrange, ih (k.le_succ.trans hk)]
      simp only [Nat.lt_succ_iff_lt_or_eq, hfk, or_false]

/-- The elements of the result word (R77, R87). -/
theorem elem_resultWord (dt : Dt) (m n : Reg) (s : State) (r : Nat) {e : Nat}
    (he : e < elementsOf dt) :
    elem (resultWord dt m n s r) e (esizeOf dt) = (laneOut dt m n s r e).1 :=
  (elem_foldl_setElem dt _ le_rfl 0#64 he).trans (if_pos he)

/-- Each destination register is the result word, all 64 bits of it (R25, R87). -/
theorem vectorLoop_readD (dt : Dt) {d m n : Reg} {regs : Nat} (h : legalShape regs d m n) (s : State)
    {r : Nat} (hr : r < regs) :
    (vectorLoop dt d m n regs s).readD (regAt d r) = resultWord dt m n s r :=
  eq_of_elem_eq dt _ _ fun e he => by
    rw [vectorLoop_elem dt h s hr he, elem_resultWord dt m n s r he]

/-- The result at a position depends on the two source registers alone (R25). -/
theorem laneOut_congr_registers (dt : Dt) {m n : Reg} {s s' : State} {r : Nat}
    (hm : s'.readD (regAt m r) = s.readD (regAt m r))
    (hn : s'.readD (regAt n r) = s.readD (regAt n r)) (e : Nat) :
    laneOut dt m n s' r e = laneOut dt m n s r e :=
  laneOut_congr dt m n (by rw [hm]) (by rw [hn])

/-- The result word depends on the two source registers alone (R25). -/
theorem resultWord_congr (dt : Dt) {m n : Reg} {s s' : State} {r : Nat}
    (hm : s'.readD (regAt m r) = s.readD (regAt m r))
    (hn : s'.readD (regAt n r) = s.readD (regAt n r)) :
    resultWord dt m n s' r = resultWord dt m n s r :=
  eq_of_elem_eq dt _ _ fun e he => by
    rw [elem_resultWord dt m n s' r he, elem_resultWord dt m n s r he,
      laneOut_congr_registers dt hm hn]

/-- Settles O23: a zero count copies the element, and a register is its elements. -/
theorem zeroCountsCopyTheVector : Obligations.ZeroCountsCopyTheVector := by
  intro i s t hc hexec hcounts
  have hcopy {r e : Nat} (hr : r < i.regs) (he : e < elementsOf i.dt) :
      laneOut i.dt i.m i.n s r e = (dataElem i.dt i.m s r e, false) := by
    apply lane_of_count_zero
    rw [shiftCount_eq_lowByte, hcounts r hr e he]
    rfl
  obtain ⟨-, hkept, -⟩ := qcIsSetExactlyWhenAnElementSaturates i s t hexec
  obtain ⟨hfailed, -⟩ | ⟨-, hwf, -, rfl⟩ := exec_next hexec
  · exact absurd (hc.symm.trans hfailed) (by decide)
  · refine ⟨fun r hr => eq_of_elem_eq i.dt _ _ fun e he => ?_, hkept ?_⟩
    · have hresult := vectorLoop_elem i.dt (legalShape_of_wellFormed hwf) s hr he
      rwa [hcopy hr he] at hresult
    · rintro ⟨-, r, hr, e, he, hsat⟩
      rw [hcopy hr he] at hsat
      cases hsat

/-- Settles O24: both operations complete, with the same result words and the same saturations. -/
theorem destinationDependsOnTheSourcesAlone : Obligations.DestinationDependsOnTheSourcesAlone := by
  intro i s s' t hm hn hpc henv hparams hc hexec
  obtain ⟨hfailed, -⟩ | ⟨-, hwf, ha, rfl⟩ := exec_next hexec
  · exact absurd (hc.symm.trans hfailed) (by decide)
  have hlegal := legalShape_of_wellFormed hwf
  have hexec' := exec_of_passed ((conditionPassed_congr hpc henv hparams _).trans hc) hwf
    ((advSIMDAccess_congr henv hparams).trans ha)
  refine ⟨_, hexec', fun r hr => ?registers, fun hqc => ?flag⟩
  case registers =>
    rw [State.advancePc_readD, State.advancePc_readD, vectorLoop_readD _ hlegal _ hr,
      vectorLoop_readD _ hlegal _ hr, resultWord_congr i.dt (hm r hr) (hn r hr)]
  case flag =>
    rw [State.advancePc_fpscr, State.advancePc_fpscr, Bool.eq_iff_iff, vectorLoop_qc _ hlegal,
      vectorLoop_qc _ hlegal, hqc]
    refine or_congr_right (exists_congr fun r => and_congr_right fun hr => exists_congr fun e => ?_)
    rw [laneOut_congr_registers i.dt (hm r hr) (hn r hr)]

end Sys2Proof.Machine
end

section
/-! PROOFS. The Q register of a Q form (10_state.md R22, R24; O25), the all-at-once reading and the order of the elements
(40_vqrshl.md R87, R90; O26, O27), and a Q form as two D forms (R84; O28). -/

namespace Sys2Proof.Machine

/-! ## The pair of a Q register -/

/-- The number of a Q register's first D register is even (R22). -/
theorem qBase_even (q : BitVec 4) : (qBase q).getLsbD 0 = false := by
  revert q; decide

/-- A pair that starts at another even register shares no register with the destination (R22, R24). -/
theorem regAt_qBase_ne {d : Reg} {q : BitVec 4} (hd : d.getLsbD 0 = false) (hne : qBase q ≠ d)
    {r r' : Nat} (hr : r < 2) (hr' : r' < 2) : regAt (qBase q) r ≠ regAt d r' := by
  have hq := qBase_even q
  interval_cases r <;> interval_cases r'
  · simpa using hne
  · exact (regAt_one_ne_of_even hd hq).symm
  · exact regAt_one_ne_of_even hq hd
  · exact fun h => hne (add_right_cancel h)

/-- An operation on two even registers leaves every other pair (R24, R33). -/
theorem vectorLoop_readQ (dt : Dt) {d m n : Reg} (h : evenRegs d m n = true) (s : State)
    {q : BitVec 4} (hne : qBase q ≠ d) : (vectorLoop dt d m n 2 s).readQ q = s.readQ q := by
  obtain ⟨hd, -, -⟩ := (evenRegs_iff d m n).mp h
  have hother {r : Nat} (hr : r < 2) :
      (vectorLoop dt d m n 2 s).readD (regAt (qBase q) r) = s.readD (regAt (qBase q) r) :=
    vectorLoop_other dt d m n 2 s fun _ hr' => regAt_qBase_ne hd hne hr hr'
  have hfirst := hother (r := 0) (by decide)
  rw [regAt_zero] at hfirst
  exact Prod.ext hfirst (hother (r := 1) (by decide))

/-- A completed Q form leaves every pair but its destination's. -/
theorem exec_readQ {i : Instr} {s t : State} (hregs : i.regs = 2)
    (heven : i.wellFormed = evenRegs i.d i.m i.n) (hexec : exec i s = .next t) {q : BitVec 4}
    (hne : qBase q ≠ i.d) : t.readQ q = s.readQ q := by
  obtain ⟨-, rfl⟩ | ⟨-, hwf, -, rfl⟩ := exec_next hexec
  · rfl
  · rw [hregs]
    exact vectorLoop_readQ i.dt (heven ▸ hwf) s hne

/-- Settles O25: `exec_readQ` for the two Q forms. -/
theorem qFormChangesOneQRegister : Obligations.QFormChangesOneQRegister := by
  intro dt d m n s t hexec q hne
  obtain ha1 | ht1 := hexec
  · exact exec_readQ (i := .vqrshlA1Q dt d m n) rfl rfl ha1 hne
  · exact exec_readQ (i := .vqrshlT1Q dt d m n) rfl rfl ht1 hne

/-! ## Reading first -/

/-- The writes of `readFirst`, without the flag. -/
def writeResults (dt : Dt) (d m n : Reg) (regs : Nat) (s : State) : State :=
  (List.range regs).foldl (fun t r => t.writeD (regAt d r) (resultWord dt m n s r)) s

theorem readFirst_eq (dt : Dt) (d m n : Reg) (regs : Nat) (s : State) :
    readFirst dt d m n regs s = (writeResults dt d m n regs s).setQcIf (anySat dt m n regs s) := rfl

/-- One register per operand more is one write more. -/
theorem writeResults_succ (dt : Dt) (d m n : Reg) (k : Nat) (s : State) :
    writeResults dt d m n (k + 1) s =
      (writeResults dt d m n k s).writeD (regAt d k) (resultWord dt m n s k) := by
  simp [writeResults, List.range_succ]

/-- `writeResults` writes registers alone. -/
theorem writeResults_frame (dt : Dt) (d m n : Reg) (regs : Nat) (s : State) :
    (writeResults dt d m n regs s).fpscr = s.fpscr ∧ (writeResults dt d m n regs s).pc = s.pc ∧
      (writeResults dt d m n regs s).env = s.env ∧
      (writeResults dt d m n regs s).params = s.params := by
  induction regs with
  | zero => exact ⟨rfl, rfl, rfl, rfl⟩
  | succ k ih => simpa [writeResults_succ] using ih

/-- `writeResults` leaves every register outside the destination. -/
theorem writeResults_other (dt : Dt) (d m n : Reg) {regs : Nat} (s : State) {i : Reg}
    (hi : ∀ r < regs, i ≠ regAt d r) : (writeResults dt d m n regs s).readD i = s.readD i := by
  induction regs with
  | zero => rfl
  | succ k ih =>
    rw [writeResults_succ, State.readD_writeD_other _ _ (hi k k.lt_succ_self),
      ih fun r hr => hi r (hr.trans k.lt_succ_self)]

/-- `writeResults` leaves each destination register at its result word. -/
theorem writeResults_readD (dt : Dt) (d m n : Reg) {regs : Nat} (hregs : regs ≤ 2) (s : State)
    {r : Nat} (hr : r < regs) :
    (writeResults dt d m n regs s).readD (regAt d r) = resultWord dt m n s r := by
  induction regs with
  | zero => omega
  | succ k ih =>
    rw [writeResults_succ]
    obtain hlt | rfl := Nat.lt_succ_iff_lt_or_eq.mp hr
    · have hne : regAt d r ≠ regAt d k := fun h =>
        hlt.ne (regAt_inj (by omega) (by omega) h)
      rw [State.readD_writeD_other _ _ hne, ih (by omega) hlt]
    · exact State.readD_writeD_same _ _ _

/-- Whether an element saturates, as a proposition. -/
theorem anySat_iff (dt : Dt) (m n : Reg) (regs : Nat) (s : State) :
    anySat dt m n regs s = true ↔
      ∃ r < regs, ∃ e < elementsOf dt, (laneOut dt m n s r e).2 = true := by
  simp [anySat]

/-- Two FPSCR with the same QC and the same rest are one. -/
theorem FPSCR.eq_of_fields {f g : FPSCR} (hqc : f.qc = true ↔ g.qc = true)
    (hrest : f.rest = g.rest) : f = g :=
  (FPSCR.eq_of_qc_sticky (sat := False) (by rw [hqc, or_false]) hrest).2 not_false

/-- Settles O26: the loops and the all-at-once reading agree on every register and on FPSCR. -/
theorem sequentialLoopIsReadingFirst : Obligations.SequentialLoopIsReadingFirst := by
  intro dt d m n regs s hlegal
  obtain ⟨hfpscr, hpc, henv, hparams⟩ := writeResults_frame dt d m n regs s
  rw [readFirst_eq]
  refine State.eq_of_reads (fun j => ?registers) (FPSCR.eq_of_fields ?qc ?rest) ?_ ?_ ?_
  case registers =>
    rw [State.setQcIf_readD]
    by_cases hj : ∃ r < regs, j = regAt d r
    · obtain ⟨r, hr, rfl⟩ := hj
      have hregs : regs ≤ 2 := by obtain rfl | ⟨rfl, -⟩ := hlegal <;> decide
      rw [vectorLoop_readD dt hlegal s hr, writeResults_readD dt d m n hregs s hr]
    · have hother : ∀ r < regs, j ≠ regAt d r := fun r hr heq => hj ⟨r, hr, heq⟩
      rw [vectorLoop_other dt d m n regs s hother, writeResults_other dt d m n s hother]
  case qc =>
    rw [vectorLoop_qc dt hlegal, State.setQcIf_qc, Bool.or_eq_true, anySat_iff, hfpscr]
  case rest => rw [vectorLoop_rest, State.setQcIf_rest, hfpscr]
  · rw [vectorLoop_pc, State.setQcIf_pc, hpc]
  · rw [vectorLoop_env, State.setQcIf_env, henv]
  · rw [vectorLoop_params, State.setQcIf_params, hparams]

/-! ## The order of the elements -/

/-- The positions of the loops. -/
theorem mem_positions {dt : Dt} {regs : Nat} {p : Nat × Nat} :
    p ∈ positions dt regs ↔ p.1 < regs ∧ p.2 < elementsOf dt := by
  obtain ⟨r, e⟩ := p
  simp [positions]

/-- The loops process the positions in their order. -/
theorem vectorLoop_eq_foldl (dt : Dt) (d m n : Reg) (regs : Nat) (s : State) :
    vectorLoop dt d m n regs s =
      (positions dt regs).foldl (fun s p => laneStep dt d m n s p.1 p.2) s := by
  simp only [vectorLoop, elementLoop, positions, List.foldl_flatMap, List.foldl_map]

/-- One iteration leaves the result at every other position (R90): it writes one element, and a source register that it writes
stands in the place of that element's register. -/
theorem laneOut_laneStep (dt : Dt) {d m n : Reg} {regs : Nat} (h : legalShape regs d m n) (s : State)
    {p q : Nat × Nat} (hp : p ∈ positions dt regs) (hq : q ∈ positions dt regs) (hne : p ≠ q) :
    laneOut dt m n (laneStep dt d m n s p.1 p.2) q.1 q.2 = laneOut dt m n s q.1 q.2 := by
  obtain ⟨hpr, -⟩ := mem_positions.mp hp
  obtain ⟨hqr, hqe⟩ := mem_positions.mp hq
  obtain ⟨hm, hn⟩ := h.same_place hqr hpr
  have kept {i : Reg} (hi : i = regAt d p.1 → q.1 = p.1) :
      ¬(i = regAt d p.1 ∧ q.2 = p.2) := fun ⟨hreg, he⟩ => hne (Prod.ext (hi hreg).symm he.symm)
  apply laneOut_congr
  · rw [laneStep_elem dt d m n s _ _ _ _ hqe, if_neg (kept hm)]
  · rw [laneStep_elem dt d m n s _ _ _ _ hqe, if_neg (kept hn)]

/-- Two iterations of a legal operation commute (R90). -/
theorem laneStep_comm (dt : Dt) {d m n : Reg} {regs : Nat} (h : legalShape regs d m n) (s : State)
    {p q : Nat × Nat} (hp : p ∈ positions dt regs) (hq : q ∈ positions dt regs) :
    laneStep dt d m n (laneStep dt d m n s p.1 p.2) q.1 q.2 =
      laneStep dt d m n (laneStep dt d m n s q.1 q.2) p.1 p.2 := by
  by_cases hpq : p = q
  · rw [hpq]
  have hqOut := laneOut_laneStep dt h s hp hq hpq
  have hpOut := laneOut_laneStep dt h s hq hp (Ne.symm hpq)
  refine State.eq_of_reads (fun j => eq_of_elem_eq dt _ _ fun f hf => ?registers)
    (FPSCR.eq_of_fields ?qc (by simp)) (by simp) (by simp) (by simp)
  case registers =>
    simp only [laneStep_elem dt d m n _ _ _ f j hf, hqOut, hpOut]
    by_cases hfp : j = regAt d p.1 ∧ f = p.2
    · by_cases hfq : j = regAt d q.1 ∧ f = q.2
      · obtain ⟨hpr, -⟩ := mem_positions.mp hp
        obtain ⟨hqr, -⟩ := mem_positions.mp hq
        have hplace := regAt_inj (h.lt_two hpr) (h.lt_two hqr) (hfp.1.symm.trans hfq.1)
        exact absurd (Prod.ext hplace (hfp.2.symm.trans hfq.2)) hpq
      · rw [if_neg hfq, if_pos hfp, if_pos hfp]
    · rw [if_neg hfp, if_neg hfp]
  case qc =>
    simp only [laneStep_qc, hqOut, hpOut, Bool.or_eq_true]
    exact or_right_comm

/-- Settles O27: iterations commute pairwise, so a permutation of them leaves the same state. -/
theorem elementOrderIsNotObservable : Obligations.ElementOrderIsNotObservable := by
  intro dt d m n regs s order hlegal hperm
  rw [vectorLoop_eq_foldl]
  exact hperm.foldl_eq' (fun p hp q hq z =>
    laneStep_comm dt hlegal z (hperm.mem_iff.mp hp) (hperm.mem_iff.mp hq)) s

/-! ## A Q form as two D forms -/

/-- The pc takes no part in an iteration. -/
theorem laneStep_advancePc (dt : Dt) (d m n : Reg) (s : State) (r e : Nat) :
    laneStep dt d m n s.advancePc r e = (laneStep dt d m n s r e).advancePc := by
  have hout : laneOut dt m n s.advancePc r e = laneOut dt m n s r e := rfl
  rw [laneStep, laneStep, hout]
  cases (laneOut dt m n s r e).2 <;> rfl

/-- The pc takes no part in the loop over one register. -/
theorem elementLoop_advancePc (dt : Dt) (d m n : Reg) (r : Nat) (s : State) :
    elementLoop dt d m n r s.advancePc = (elementLoop dt d m n r s).advancePc :=
  List.foldl_hom State.advancePc fun s e => laneStep_advancePc dt d m n s r e

/-- The second pass is the first pass on the next registers (R84). -/
theorem elementLoop_next_registers (dt : Dt) (d m n : Reg) (s : State) :
    elementLoop dt (d + 1#5) (m + 1#5) (n + 1#5) 0 s = elementLoop dt d m n 1 s := by
  have hreg (i : Reg) : regAt (i + 1#5) 0 = regAt i 1 := regAt_zero _
  simp only [elementLoop, laneStep, laneOut, dataElem, countElem, hreg]

/-- A D form completes with one pass where Advanced SIMD is permitted (R83). -/
theorem exec_a1D_of_permitted (dt : Dt) (d m n : Reg) {s : State}
    (h : s.advSIMDAccess = .permitted) :
    exec (.vqrshlA1D dt d m n) s = .next (elementLoop dt d m n 0 s).advancePc :=
  exec_of_passed (i := .vqrshlA1D dt d m n) rfl rfl h

/-- Settles O28: the two passes of the Q form are the passes of the two D forms. -/
theorem qFormIsTwoDForms : Obligations.QFormIsTwoDForms := by
  intro dt d m n s t hexec
  obtain ⟨hfailed, -⟩ | ⟨-, -, ha, rfl⟩ := exec_next hexec
  · cases hfailed
  have ha' : (elementLoop dt d m n 0 s).advancePc.advSIMDAccess = .permitted :=
    (advSIMDAccess_congr (by simp) (by simp)).trans ha
  refine ⟨_, _, exec_a1D_of_permitted dt d m n ha, exec_a1D_of_permitted dt _ _ _ ha', ?_⟩
  rw [elementLoop_next_registers, elementLoop_advancePc]
  refine State.eq_of_reads (fun _ => rfl) rfl ?pc rfl rfl
  case pc => exact congrArg (· + 4#32) (vectorLoop_pc dt d m n 2 s)

end Sys2Proof.Machine
end

section
/-! PROOFS. What a step answers and keeps (10_state.md sections 3 to 5, 20_memory.md section 3, 70_reset_and_hazards.md section
2; O30 to O36), the loader (O37) and the parameter tables (O38). -/

namespace Sys2Proof.Machine

/-! ## The invariant of a step -/

/-- What a completed step keeps: the frame of `CompletedStepChangesOnlyTheDestination` without the registers. -/
structure StepFrame (s t : State) : Prop where
  /-- The pc advances (R29; log 8). -/
  pc : t.pc = s.pc + 4#32
  /-- `env` is unchanged (R30, R33). -/
  env : t.env = s.env
  /-- The parameters are unchanged. -/
  params : t.params = s.params
  /-- The unnamed bits of FPSCR are unchanged (R27). -/
  rest : t.fpscr.rest = s.fpscr.rest
  /-- QC is never cleared (R82). -/
  qc : s.fpscr.qc = true → t.fpscr.qc = true

/-- Advancing the pc keeps the frame (R33). -/
theorem stepFrame_advancePc (s : State) : StepFrame s s.advancePc :=
  ⟨rfl, rfl, rfl, rfl, id⟩

/-- A vector result keeps the frame. -/
theorem VectorResult.stepFrame {dt : Dt} {d m n : Reg} {regs : Nat} {s t : State}
    (h : VectorResult dt d m n regs s t) : StepFrame s t :=
  ⟨h.pc, h.env, h.params, h.fpscrRest, fun hqc => h.qc.mpr (.inl hqc)⟩

/-- A completed instruction keeps the frame and every register but its destination's (R33). -/
theorem exec_frame {i : Instr} {s t : State} (h : exec i s = .next t) :
    StepFrame s t ∧ ∀ j : Reg, (∀ r < i.regs, j ≠ regAt i.d r) → t.readD j = s.readD j := by
  obtain ⟨-, rfl⟩ | ⟨-, hwf, -, rfl⟩ := exec_next h
  · exact ⟨stepFrame_advancePc s, fun _ _ => rfl⟩
  · have hresult := vectorResult_of_legal i.dt (legalShape_of_wellFormed hwf) s
    exact ⟨hresult.stepFrame, hresult.registers⟩

/-- Both alignments divide 4, and 4 divides 2^32: the next pc is aligned (R29, R44). -/
theorem pcAligned_of_advance {s t : State} (hpc : t.pc = s.pc + 4#32) (hparams : t.params = s.params)
    (h : s.pcAligned = true) : t.pcAligned = true := by
  have hnat : t.pc.toNat = (s.pc.toNat + 4) % 2 ^ 32 := by rw [hpc, BitVec.toNat_add]; rfl
  simp only [State.pcAligned, hparams, beq_iff_eq] at h ⊢
  cases hiset : s.params.iset <;> simp only [hiset, pcAlignment] at h ⊢ <;> omega

/-- A completed step keeps the frame. -/
theorem step_frame {s t : State} (h : step s = .next t) : StepFrame s t := by
  obtain ⟨-, w, i, -, -, hexec⟩ := step_next h
  exact (exec_frame hexec).1

/-- Settles O32: the step is its instruction, whose frame is `exec_frame`. -/
theorem completedStepChangesOnlyTheDestination :
    Obligations.CompletedStepChangesOnlyTheDestination := by
  intro s t h
  obtain ⟨haligned, w, i, hw, hi, hexec⟩ := step_next h
  obtain ⟨hframe, hregisters⟩ := exec_frame hexec
  exact ⟨hframe.pc, pcAligned_of_advance hframe.pc hframe.params haligned, hframe.env,
    hframe.params, hframe.rest, hframe.qc, w, i, hw, hi, hregisters⟩

/-- The launch premises, one by one (R121, R122). -/
theorem launched_iff (s : State) :
    s.launched = true ↔
      s.params.program.wf = true ∧ s.pcAligned = true ∧ s.advSIMDAccess = .permitted := by
  simp [State.launched, and_assoc]

/-- Settles O33: a step writes neither `env` nor the parameters, and keeps the alignment. -/
theorem launchPremisesAreKept : Obligations.LaunchPremisesAreKept := by
  intro s t hlaunched h
  obtain ⟨hwf, haligned, haccess⟩ := (launched_iff s).mp hlaunched
  have hframe := step_frame h
  exact (launched_iff t).mpr ⟨hframe.params ▸ hwf,
    pcAligned_of_advance hframe.pc hframe.params haligned,
    (advSIMDAccess_congr hframe.env hframe.params).trans haccess⟩

/-- Settles O34: induction on the number of steps, each of them `step_frame`. -/
theorem completedRunEndsPastItsWords : Obligations.CompletedRunEndsPastItsWords := by
  intro k
  induction k with
  | zero =>
    intro s t h
    obtain rfl : s = t := Host.Outcome.next.inj h
    exact ⟨by simp [State.atProgramEnd], rfl, rfl, id, id⟩
  | succ k ih =>
    intro s t h
    obtain ⟨u, hstep, hrun⟩ := run_next core h
    have hframe := step_frame hstep
    obtain ⟨hend, henv, hparams, hqc, hlaunched⟩ := ih u t hrun
    refine ⟨?pc, henv.trans hframe.env, hparams.trans hframe.params, fun h => hqc (hframe.qc h),
      fun h => hlaunched (launchPremisesAreKept s u h hstep)⟩
    case pc =>
      simp only [State.atProgramEnd, beq_iff_eq] at hend ⊢
      rw [hend, hframe.pc, add_assoc, Nat.mul_succ, add_comm (4 * k), BitVec.ofNat_add]

/-- Settles O35: the start state evaluates to a launched one. -/
theorem startStateMeetsTheLaunchPremises : Obligations.StartStateMeetsTheLaunchPremises := by
  unfold Obligations.StartStateMeetsTheLaunchPremises
  decide

/-! ## What a step answers -/

/-- Settles O30: `step_eq_exec`. -/
theorem stepRunsTheDecodedInstruction : Obligations.StepRunsTheDecodedInstruction :=
  fun _ _ _ => step_eq_exec

/-- Settles O36: the condition fails and the pc advances, or every check passes. -/
theorem launchedStepCompletes : Obligations.LaunchedStepCompletes := by
  intro s w i hlaunched hw hi hwf
  obtain ⟨-, haligned, haccess⟩ := (launched_iff s).mp hlaunched
  rw [step_eq_exec haligned hw hi]
  cases hc : s.conditionPassed i.iset with
  | false => exact ⟨_, exec_of_failed hc⟩
  | true => exact ⟨_, exec_of_passed hc hwf haccess⟩

/-- No instruction is refused. -/
theorem exec_ne_refused (i : Instr) (s : State) (r : Refusal) : exec i s ≠ .refused r := by
  rw [exec_eq]
  split
  · split
    · rw [ifAdvSIMDEnabled]
      split <;> simp [raiseFault]
    · simp [raiseFault]
  · simp

/-- A word that is in no row of the instruction set, by mask (R52, R54, R60). -/
theorem decodeWord_error_iff (iset : ISet) (w : Word) :
    (∃ e, decodeWord iset w = .error e) ↔ w &&& classMask iset ≠ classMatch iset := by
  rw [ne_eq, ← decodeWord_ok_iff_classMask]
  cases decodeWord iset w <;> simp

/-- The three refusals of a step, in the order of its checks (R44, R48, R60). -/
theorem step_refused_iff (s : State) (r : Refusal) :
    step s = .refused r ↔
      (s.pcAligned = false ∧ r = .misalignedPc s.pc) ∨
      (s.pcAligned = true ∧
        ((s.fetchWord = none ∧ r = .noProgramWord s.pc) ∨
          ∃ w, s.fetchWord = some w ∧ r = .notVqrshl w ∧
            w &&& classMask s.params.iset ≠ classMatch s.params.iset)) := by
  simp only [← decodeWord_error_iff]
  rw [step]
  cases s.pcAligned with
  | false => simp [eq_comm]
  | true =>
    cases s.fetchWord with
    | none => simp [eq_comm]
    | some w =>
      cases hdec : decodeWord s.params.iset w with
      | error e => simp [hdec, eq_comm (a := r)]
      | ok i => simp [hdec, exec_ne_refused]

/-- Settles O31: `step_refused_iff` with the alignment and the masks of each instruction set written out. -/
theorem stepRefusesExactlyWhen : Obligations.StepRefusesExactlyWhen := by
  intro s r
  rw [step_refused_iff, ← Bool.not_eq_true, State.pcAligned, beq_iff_eq, State.fetchWord]
  cases s.params.iset <;> simp [pcAlignment, classMask, classMatch]

/-! ## The loader -/

/-- The bits of a 32-bit table word are the word. -/
theorem tableWord_toNat (w : Word) : tableWord 32 w.toNat = w := by
  rw [tableWord, Nat.mod_eq_of_lt w.isLt, BitVec.ofNat_toNat, BitVec.setWidth_eq]

/-- No word is of both classes: bit 26 is 0 in A1 and 1 in T1 (R55). -/
theorem not_isA1_of_isT1 {w : Word} (h : isT1 w = true) : isA1 w = false := by
  simp only [isT1, Bool.and_eq_true, beq_iff_eq] at h
  obtain ⟨⟨-, hbits⟩, -⟩ := h
  have hset : w.getLsbD 26 = true := by simpa using congrArg (fun b => b.getLsbD 2) hbits
  by_contra hA1
  simp only [Bool.not_eq_false, isA1, Bool.and_eq_true, beq_iff_eq] at hA1
  obtain ⟨hclass, -⟩ := hA1
  have hclear : w.getLsbD 26 = false := by simpa using congrArg (fun b => b.getLsbD 1) hclass
  exact absurd (hset.symm.trans hclear) (by decide)

/-- A word that decodes is recognised as one of its instruction set (R55). -/
theorem isetOfWord_of_decodeWord {iset : ISet} {w : Word} {i : Instr}
    (h : decodeWord iset w = .ok i) : isetOfWord w = some iset := by
  obtain ⟨hclass, -⟩ := decodeWord_ok h
  cases iset with
  | a32 => exact if_pos hclass
  | t32 => rw [isetOfWord, not_isA1_of_isT1 hclass, if_neg Bool.false_ne_true]; exact if_pos hclass

/-- The opcode table's reading of a word that decodes (log 28). -/
theorem decodeTableWord_of_decodeWord {iset : ISet} {w : Word} {i : Instr}
    (h : decodeWord iset w = .ok i) : decodeTableWord 32 w.toNat = some i := by
  have hbytes := decodeBytes_bytesOfWord h []
  rw [List.append_nil] at hbytes
  simp only [decodeTableWord, tableWord_toNat, isetOfWord_of_decodeWord h, hbytes]

/-- The aligned address as a number. -/
theorem alignPc_toNat (iset : ISet) (pc : Word) :
    (alignPc iset pc).toNat = pc.toNat - pc.toNat % pcAlignment iset :=
  Nat.mod_eq_of_lt ((Nat.sub_le _ _).trans_lt pc.isLt)

/-- The loaded state: the pc aligned, the instruction set the word's, the word at the pc (log 22). -/
theorem withFetchWord_eq (s : State) {iset : ISet} {w : Word} {i : Instr}
    (h : decodeWord iset w = .ok i) :
    s.withFetchWord 32 w.toNat =
      { s with
        pc := alignPc iset s.pc
        params := { s.params with
          iset := iset
          program := s.params.program.place (alignPc iset s.pc).toNat w } } := by
  rw [State.withFetchWord, State.loadAtPc, tableWord_toNat, isetOfWord_of_decodeWord h]
  rfl

/-- A pc aligned to four is aligned for both instruction sets (R44). -/
theorem alignPc_of_mod_four {iset : ISet} {pc : Word} (h : pc.toNat % 4 = 0) :
    alignPc iset pc = pc := by
  have hzero : pc.toNat % pcAlignment iset = 0 := by
    cases iset <;> simp only [pcAlignment] <;> omega
  exact BitVec.eq_of_toNat_eq (by rw [alignPc_toNat, hzero, Nat.sub_zero])

/-- An aligned address is a multiple of the alignment (R44). -/
theorem alignPc_mod (iset : ISet) (pc : Word) :
    (alignPc iset pc).toNat % pcAlignment iset = 0 := by
  rw [alignPc_toNat]
  exact Nat.mod_eq_zero_of_dvd (Nat.dvd_sub_mod _)

/-- Settles O37: `withFetchWord_eq` says what changes; the word is read back where it was placed. -/
theorem loadedWordIsRunNext : Obligations.LoadedWordIsRunNext := by
  intro s iset w i h t
  have ht : t = _ := withFetchWord_eq s h
  clear_value t
  subst ht
  refine ⟨step_eq_exec ?aligned ?fetched h, decodeTableWord_of_decodeWord h, rfl, rfl, rfl, rfl, rfl,
    rfl, alignPc_of_mod_four, fun a ha => ProgramText.wordAt_place_other _ w ha,
    ProgramText.wf_place _ w (BitVec.isLt _)⟩
  case aligned => exact beq_iff_eq.mpr (alignPc_mod iset s.pc)
  case fetched => exact ProgramText.wordAt_place_same _ _ w

/-! ## The parameter tables -/

/-- A table of a function at listed arguments answers as the function there (R9, R10). -/
theorem Table.apply_graph {κ α : Type} [DecidableEq κ] (f : κ → α) (other : α) {ks : List κ} {k : κ}
    (h : k ∈ ks) : Table.apply ⟨ks.map fun k => (k, f k), other⟩ k = f k := by
  rw [Table.apply]
  split
  · next entry hfound =>
    obtain ⟨k', -, rfl⟩ := List.mem_map.mp (List.mem_of_find?_eq_some hfound)
    have hkey : k' = k := by simpa using List.find?_some hfound
    rw [hkey]
  · next hnone =>
    have hmiss := List.find?_eq_none.mp hnone _ (List.mem_map_of_mem h)
    simp at hmiss

/-- Settles O38: the tables of the two functions at the environment and at the listed addresses. -/
theorem parameterTablesLoseNoFunction : Obligations.ParameterTablesLoseNoFunction := by
  intro access cond s pcs
  refine ⟨{ s.params with
    advSIMDAccess := ⟨[s.env].map fun env => (env, access env), access s.env⟩
    condPassed := ⟨(pcs.map fun pc => (pc, s.env)).map fun k => (k, cond k), true⟩ }, rfl, rfl, ?_⟩
  rintro t pc hpc rfl
  exact ⟨Table.apply_graph access _ (List.mem_singleton_self _),
    Table.apply_graph cond _ (List.mem_map_of_mem (f := fun pc => (pc, s.env)) hpc)⟩

end Sys2Proof.Machine
end
